-- ==== Sys2Proof/Word.lean ====
section
/-! DEFINITION. The word type: a bit vector together with its width (R10), because the widths of this
hardware's ports depend on the data width of the instance (R7). -/

namespace Sys2Proof

/-- A bit vector `v[W-1:0]` of stated width `W` (R10). Bit `W-1` is printed leftmost. -/
structure Word where
  width : Nat
  bits  : BitVec width
  deriving DecidableEq, Repr

/-- A bit vector as a word of its own width. -/
def Word.of {n : Nat} (v : BitVec n) : Word := ⟨n, v⟩

/-- The word seen on a port of width `n`. A word of width `n` is read as it stands; a field slice
`v[n-1:0]` of a wider word is its low bits (R84). Log entry 14 covers a narrower word. -/
def Word.read (x : Word) (n : Nat) : BitVec n := x.bits.setWidth n

@[simp] theorem Word.of_width {n : Nat} (v : BitVec n) : (Word.of v).width = n := rfl

@[simp] theorem Word.of_bits {n : Nat} (v : BitVec n) : (Word.of v).bits = v := rfl

@[simp] theorem Word.read_of {n : Nat} (v : BitVec n) : (Word.of v).read n = v := by
  simp [Word.read, Word.of]

@[simp] theorem Word.of_inj {n : Nat} (v w : BitVec n) : Word.of v = Word.of w ↔ v = w := by
  simp [Word.of]

/-- A word of width `n` is its own reading at width `n`. -/
theorem Word.of_read (x : Word) (n : Nat) (h : x.width = n) : Word.of (x.read n) = x := by
  subst h
  simp [Word.of, Word.read]

end Sys2Proof
end

