-- ==== Sys2Proof/Config.lean ====
section
/-! DEFINITION. What is fixed for the hardware from outside (the data width of the instance the opcode
table's words are written for) and the FREE VALUES, which the spec leaves open: constants with no
body, so that nothing can be proved about what they are. -/

namespace Sys2Proof

/-- The data width `M` of an instance: any integer `M >= 1`; `M = 0` is refused (R6, D13), here by the
type. -/
structure DataWidth where
  bits : Nat
  pos  : 1 ≤ bits
  deriving DecidableEq, Repr

/-- The data width of the instance that the top-level words of `spec/opcode_table.json` are written for,
and that State.reset stands for. DESIGN CHOICE (log entry 2): the spec leaves `M` open (D2). -/
def Config.resetWidth : DataWidth := ⟨8, by decide⟩

/-- The wrapper's output ports other than `err_o` (R79): the ones that carry no meaning while an error
is reported (R172, D15). -/
inductive OutPort where
  | y | status | posValid | pos | idx | syndrome | parMismatch
  deriving DecidableEq, Repr

/-- FREE VALUE (log entry 5): the bits an output port carries while `err_o` reports an error. "every
other output of that unit carries no meaningful value ...; the spec does not fix those bits" (R172).
The first argument is the model's own counter, so that two failing calls need not agree. -/
opaque Config.freeBits : Nat → OutPort → (width : Nat) → BitVec width

/-- FREE VALUE (log entry 3): the host's current codeword string before any program runs. "a model of
the host must take the initial `cur` as an input and must not assume it is empty, all-zero or a valid
codeword" (R192). -/
opaque Config.initialCur : List Char

end Sys2Proof
end

