-- ==== Sys2Proof/Machine/Params.lean ====
section
/-! DEFINITION. The derived sizes of an instance (R7, R60 to R62), the Hamming positions (R63 to R65) and
the bit helpers every unit uses (R10). -/

namespace Sys2Proof.Machine

/-- `bitlen(n)`: the number of bits of `n` (R10). -/
def bitlen (n : Nat) : Nat := if n = 0 then 0 else Nat.log2 n + 1

/-- `is_pow2(p)`: `p = 2^k` for some `k >= 0` (R10). -/
def isPow2 (p : Nat) : Bool := p == 2 ^ Nat.log2 p

/-- The search of R60, counting upward from `r`; the first argument bounds the number of tries. -/
def rparFrom (m : Nat) : Nat → Nat → Nat
  | 0, r => r
  | tries + 1, r => if 2 ^ r < m + r + 1 then rparFrom m tries (r + 1) else r

/-- `rpar(m)`: "the smallest non-negative integer such that `2^r >= m + r + 1`" (R60). The answer is at
most `m + 1`, so `m + 1` tries are enough (`Obligations.ParityWidthIsLeast`). -/
def rpar (m : Nat) : Nat := rparFrom m (m + 1) 0

/-- `N = M + R`, the count of Hamming-numbered positions (R7). -/
def numPositions (m : Nat) : Nat := m + rpar m

/-- `L = N + 1`, the codeword length in bits (R7). -/
def codeLen (m : Nat) : Nat := numPositions m + 1

/-- `IW = bitlen(L)`, the width of the index field (R7, D17). -/
def idxWidth (m : Nat) : Nat := bitlen (codeLen m)

/-- The width of a request word, `2 + IW + L` (R79). -/
def reqWidth (m : Nat) : Nat := 2 + idxWidth m + codeLen m

/-- The search of R62 for the pair `(m, r)` of a codeword with `n` numbered positions. -/
def lenParamsFrom (n : Nat) : Nat → Nat → Option (Nat × Nat)
  | 0, _ => none
  | tries + 1, r =>
    if 1 ≤ n - r ∧ rpar (n - r) = r then some (n - r, r) else lenParamsFrom n tries (r + 1)

/-- `len_params(L)` (R62): the pair `(m, r)` with `m >= 1` and `m + rpar(m) + 1 = L`, or none. -/
def lenParams (len : Nat) : Option (Nat × Nat) := lenParamsFrom (len - 1) len 0

/-- The numbered positions `1..N` in increasing order (R63). -/
def positions (m : Nat) : List Nat := List.range' 1 (numPositions m)

/-- The data positions in increasing order: the numbered positions that are no power of two (R63). -/
def dataPositions (m : Nat) : List Nat := (positions m).filter (fun p => !isPow2 p)

/-- `dpos(j)`: the `(j+1)`-th data position (R64). -/
def dpos (m j : Nat) : Nat := (dataPositions m).getD j 0

/-- `didx(p)`: the number of data positions below `p` (R64). -/
def didx (p : Nat) : Nat := ((List.range' 1 (p - 1)).filter (fun q => !isPow2 q)).length

/-- `cover(i)`: the positions whose binary index has bit `i` set (R65). -/
def cover (m i : Nat) : List Nat := (positions m).filter (fun p => p.testBit i)

/-- `XOR{ e(p) : p in S }` (R10); `0` over the empty set. -/
def xorOver (ps : List Nat) (e : Nat → Bool) : Bool := ps.foldr (fun p acc => e p ^^ acc) false

/-- The vector of width `n` whose bit `p` is `f p`. -/
def vec : (n : Nat) → (Nat → Bool) → BitVec n
  | 0, _ => 0#0
  | n + 1, f => BitVec.cons (f n) (vec n f)

/-- `v` with bit `p` inverted: `y <- v ; y[p] <- ~v[p]` (R128, R150). -/
def toggle {n : Nat} (v : BitVec n) (p : Nat) : BitVec n := v ^^^ BitVec.twoPow n p

end Sys2Proof.Machine
end

