-- ==== Sys2Proof/Syntax.lean ====
section
/-! DEFINITION. The operations of the wrapper: one constructor per row of `spec/opcode_table.json`, each
holding the two operand fields `idx` and `a` of the request word (R79), the unread ones too (R84), so
that no bit of a request is lost between decoding and encoding. -/

namespace Sys2Proof

/-- The operation map (R80, R82). Operand fields: the index field `idx[IW-1:0]` and the data field
`a[L-1:0]`. -/
inductive Instr where
  /-- `ENCODE` (R100): reads `a[M-1:0]`; `idx` and `a[L-1:M]` are ignored (R84). -/
  | encode (idx a : Word)
  /-- `DECODE` (R120): reads `a[L-1:0]`; `idx` is ignored (R84). -/
  | decode (idx a : Word)
  /-- `FLIP` (R150): reads `a[L-1:0]` and the string index `idx`. -/
  | flip (idx a : Word)
  /-- The reserved operation code `op = 11` (R83): all other bits ignored. -/
  | reserved (idx a : Word)
  deriving DecidableEq, Repr

/-- The index field of an operation. -/
def Instr.idx : Instr → Word
  | .encode i _ | .decode i _ | .flip i _ | .reserved i _ => i

/-- The data field of an operation. -/
def Instr.a : Instr → Word
  | .encode _ v | .decode _ v | .flip _ v | .reserved _ v => v

end Sys2Proof
end

