-- ==== Sys2Proof/WellFormed.lean ====
section
/-! DEFINITION. Which operations can stand in a request word of an instance of data width `m`: the fields
have the widths of R79. Every value of every field is legal (R84, R85 (f)). -/

namespace Sys2Proof

/-- The operation's index field is `IW` bits and its data field `L` bits (R79). -/
def WellFormed (m : Nat) (i : Instr) : Bool :=
  i.idx.width == Machine.idxWidth m && i.a.width == Machine.codeLen m

end Sys2Proof
end

