-- ==== Sys2Proof/Decode.lean ====
section
/-! DEFINITION. The request word of the wrapper (R79, R82): decoding, total on words of any width and
rejecting by name, then encoding, then the assembler's words (R84, R87). -/

namespace Sys2Proof

/-- Why a word is no request of the instance. -/
inductive DecodeError where
  /-- The word's width is not `2 + IW + L`: it cannot be presented on `req_i` (R79, R85). -/
  | requestWidth
  deriving DecidableEq, Repr

/-- Field `op`, `req_i[IW+L+1 : IW+L]` (R79). -/
def reqOp (m : Nat) (w : Word) : BitVec 2 :=
  w.bits.extractLsb' (Machine.idxWidth m + Machine.codeLen m) 2

/-- Field `idx`, `req_i[IW+L-1 : L]` (R79). -/
def reqIdx (m : Nat) (w : Word) : BitVec (Machine.idxWidth m) :=
  w.bits.extractLsb' (Machine.codeLen m) (Machine.idxWidth m)

/-- Field `a`, `req_i[L-1 : 0]` (R79). -/
def reqA (m : Nat) (w : Word) : BitVec (Machine.codeLen m) :=
  w.bits.extractLsb' 0 (Machine.codeLen m)

/-- The operation that code `op` selects (R82): `00` ENCODE, `01` DECODE, `10` FLIP, `11` reserved. -/
def selectOp (op : BitVec 2) (idx a : Word) : Instr :=
  if op = 0b00#2 then .encode idx a
  else if op = 0b01#2 then .decode idx a
  else if op = 0b10#2 then .flip idx a
  else .reserved idx a

/-- The operation a request word of the instance of data width `m` asks for (R79, R82). -/
def decodeRequest (m : Nat) (w : Word) : Except DecodeError Instr :=
  if w.width = Machine.reqWidth m then
    .ok (selectOp (reqOp m w) (Word.of (reqIdx m w)) (Word.of (reqA m w)))
  else .error .requestWidth

/-- The operation code of an operation (R82, table 30-6). -/
def Instr.op : Instr → BitVec 2
  | .encode _ _ => 0b00#2
  | .decode _ _ => 0b01#2
  | .flip _ _ => 0b10#2
  | .reserved _ _ => 0b11#2

/-- The request word `(op[1:0], idx[IW-1:0], a[L-1:0])`, the first field in the most significant bits
(R79). -/
def packRequest (m : Nat) (op : BitVec 2) (idx : BitVec (Machine.idxWidth m))
    (a : BitVec (Machine.codeLen m)) : BitVec (Machine.reqWidth m) :=
  op ++ idx ++ a

/-- The request word of a well-formed operation. -/
def encodeRequest (m : Nat) (i : Instr) : Word :=
  Word.of (packRequest m i.op (i.idx.read (Machine.idxWidth m)) (i.a.read (Machine.codeLen m)))

/-- The request word the assembler writes for `ENCODE <message>`: unread fields zero (R84, R87). -/
def asmEncode (m : Nat) (d : BitVec m) : Word :=
  Word.of (packRequest m 0b00#2 0 (d.setWidth (Machine.codeLen m)))

/-- The request word the assembler writes for `DECODE <codeword>` (R84, R87). -/
def asmDecode (m : Nat) (x : BitVec (Machine.codeLen m)) : Word :=
  Word.of (packRequest m 0b01#2 0 x)

/-- The request word the assembler writes for `FLIP <bits>, <index>` (R84, R87). -/
def asmFlip (m : Nat) (v : BitVec (Machine.codeLen m)) (k : BitVec (Machine.idxWidth m)) : Word :=
  Word.of (packRequest m 0b10#2 k v)

/-- A number of `nbits` bits, bit 0 its least significant, as the request word of the instance of data
width `m`. A number that needs more bits than the port has is kept as a word of its own width, which the
decoder rejects. -/
def requestOfNat (m nbits w : Nat) : Word :=
  if w % 2 ^ nbits < 2 ^ Machine.reqWidth m then Word.of (BitVec.ofNat (Machine.reqWidth m) (w % 2 ^ nbits))
  else Word.of (BitVec.ofNat nbits w)

/-- The operation the decoder reads from a word of the opcode table, on the instance the table's
top-level words are written for (`M = 8`, log entry 16). -/
def decodeTableWord (nbits w : Nat) : Option Instr :=
  match decodeRequest Config.resetWidth.bits (requestOfNat Config.resetWidth.bits nbits w) with
  | .ok i => some i
  | .error _ => none

end Sys2Proof
end

