-- ==== Sys2Proof/Machine/State.lean ====
section
/-! DEFINITION. State as plain data. The Codec Core itself holds none (R20): what stands here is the
instance parameter, the caller's side (R9, R28) and the values the caller was handed. INVENTORY.md,
'## State', lists every field with its rule. -/

namespace Sys2Proof.Machine

/-- The error taxonomy: exactly two members (R160). -/
inductive CodecError where
  | invalidInput
  | indexOutOfRange
  deriving DecidableEq, Repr

/-- The decoder's status: one of four (R74). -/
inductive Status where
  | noError
  | singleBitCorrected
  | doubleErrorDetected
  | unresolvable
  deriving DecidableEq, Repr

/-- The values on the output ports of the wrapper `secded_core` (R79). -/
structure CorePorts where
  /-- `y_o[L-1:0]` -/
  y           : Word
  /-- `status_o[1:0]` (R74) -/
  status      : BitVec 2
  /-- `pos_valid_o` -/
  posValid    : Bool
  /-- `pos_o[R-1:0]` -/
  pos         : Word
  /-- `idx_o[IW-1:0]` -/
  idx         : Word
  /-- `syndrome_o[R-1:0]` -/
  syndrome    : Word
  /-- `par_mismatch_o` -/
  parMismatch : Bool
  /-- `err_o[1:0]` (R75) -/
  err         : BitVec 2
  deriving DecidableEq, Repr

/-- One call of the caller: a request word on the wrapper (R79), or a string-level call (R107, R135,
R154). A data operand `none` is the omitted operand of R87 and means `cur`; a declared width `none` is
the one-argument form of `encode`, whose width is the instance's (R107). -/
inductive Call where
  | request (w : Word)
  | encode (s : Option (List Char)) (m : Option Int)
  | decode (s : Option (List Char))
  | flip (s : Option (List Char)) (k : Int)
  deriving DecidableEq, Repr

/-- What a call returns: a result or an error, with no data beside the error (R44, R172). -/
inductive Reply where
  | error (e : CodecError)
  | data (t : List Char)
  | decoded (t : List Char) (status : Status) (idx : Option Nat)
  deriving DecidableEq, Repr

/-- The host's last non-data result (95_test_vectors.md section 5). -/
inductive Last where
  | error (e : CodecError)
  | decoded (status : Status) (idx : Option Nat)
  deriving DecidableEq, Repr

structure State where
  /-- The instance parameter `M` (R6); no call writes it. -/
  width      : DataWidth
  /-- The caller's pending calls, oldest first (R22, R195). -/
  calls      : List Call
  /-- The host's current codeword string (R28). -/
  cur        : List Char
  /-- The host's last non-data result (D20). -/
  last       : Option Last
  /-- What the last call returned (R169, R195); none before the first call. -/
  reply      : Option Reply
  /-- The wrapper's output ports at its last request (R79, R191); none before the first request. -/
  ports      : Option CorePorts
  /-- THE MODEL'S OWN counter, for the free values on the ports of a failing request (log entry 5). -/
  freshCount : Nat
  deriving DecidableEq, Repr

/-- The data width of the instance. -/
def State.m (s : State) : Nat := s.width.bits

/-- Why a step stops. No operation of the hardware stops: errors are results (R169, R200). -/
inductive Fault where
  /-- Raised by step alone, when the caller's next call is a request word whose width is not that of the
  instance's request port: such a word cannot be presented (R43, R85, R194). SAFE (log entry 7). -/
  | requestWidth
  deriving DecidableEq, Repr

/-- Why the model has no meaning for an operation. -/
inductive Refusal where
  /-- Answered by exec alone for an operation that has no meaning yet; no arm does. SAFE. -/
  | notModelled (mnemonic : String)
  deriving DecidableEq, Repr

/-- The machine before its first call. The hardware has no reset (R190) and no state to reset (R31); the
values are the model's own, log entries 2 to 5. -/
def State.reset : State where
  width      := Config.resetWidth
  calls      := []
  cur        := Config.initialCur
  last       := none
  reply      := none
  ports      := none
  freshCount := 0

end Sys2Proof.Machine
end

