-- ==== Sys2Proof/Machine/Flags.lean ====
section
/-! DEFINITION. The computed conditions of the decoder, none of which persists (R23): the parity checks and
the syndrome (R122, R123), the overall parity (R124), the classification (R126, R127, R129); and the
numeric codes of the ports (R74, R75). -/

namespace Sys2Proof.Machine

/-- Parity check `i`: `s[i] = XOR{ x[p] : p in cover(i) }`, the parity position included (R122). -/
def parityCheck (m : Nat) {n : Nat} (x : BitVec n) (i : Nat) : Bool := xorOver (cover m i) x.getLsbD

/-- `syndrome`: the sum of `2^i` over every `i` in `0..R-1` whose check disagrees (R123). -/
def syndrome (m : Nat) {n : Nat} (x : BitVec n) : Nat :=
  ((List.range (rpar m)).map (fun i => if parityCheck m x i then 2 ^ i else 0)).sum

/-- `q`: the exclusive-or of all numbered bits (R124). -/
def overallParity (m : Nat) {n : Nat} (x : BitVec n) : Bool := xorOver (positions m) x.getLsbD

/-- `mismatch`: the recomputed overall parity differs from the stored bit `x[0]` (R124). -/
def parityMismatch (m : Nat) {n : Nat} (x : BitVec n) : Bool := overallParity m x != x.getLsbD 0

/-- The classification table (R127, table 41-1), with the range test of R129 in its second row. -/
def classify (m syn : Nat) (mismatch : Bool) : Status :=
  if syn = 0 then
    if mismatch then .doubleErrorDetected else .noError
  else if mismatch then
    if syn ≤ numPositions m then .singleBitCorrected else .unresolvable
  else .unresolvable

/-- `status_o[1:0]` (R74, table 30-5). -/
def Status.code : Status → BitVec 2
  | .noError => 0b00#2
  | .singleBitCorrected => 0b01#2
  | .doubleErrorDetected => 0b10#2
  | .unresolvable => 0b11#2

/-- `err_o[1:0]` while the error is reported (R75); `11` is never produced. -/
def CodecError.code : CodecError → BitVec 2
  | .invalidInput => 0b01#2
  | .indexOutOfRange => 0b10#2

/-- `err_o[1:0]` without an error (R75). -/
def noErrorCode : BitVec 2 := 0b00#2

end Sys2Proof.Machine
end

