-- ==== Sys2Proof/Machine/Operands.lean ====
section
/-! DEFINITION. Operands: the fields each operation reads from a request (R84), the two index spaces
(R68), and the string boundary (R67, R69 to R72). -/

namespace Sys2Proof.Machine

/-- `data_i[M-1:0] = a[M-1:0]`, the message operand of `ENCODE` (R84); `a[L-1:M]` is ignored. -/
def messageOperand (m : Nat) (a : Word) : BitVec m := (a.read (codeLen m)).setWidth m

/-- `cw_i` and `bits_i`, the data operand of `DECODE` and of `FLIP`: all of `a[L-1:0]` (R84). -/
def codewordOperand (m : Nat) (a : Word) : BitVec (codeLen m) := a.read (codeLen m)

/-- `idx_i[IW-1:0]`, the index operand of `FLIP` (R84). -/
def indexOperand (m : Nat) (idx : Word) : BitVec (idxWidth m) := idx.read (idxWidth m)

/-- `sidx(p) = N - p`: the string index of Hamming position `p` (R68). -/
def sidx (m p : Nat) : Nat := numPositions m - p

/-- `hpos(k) = N - k`: the Hamming position of string index `k` (R68). -/
def hpos (m k : Nat) : Nat := numPositions m - k

/-- The vector bit of string index `k` in a bit sequence of length `n` (R68). -/
def vecIndex (n k : Nat) : Nat := n - 1 - k

/-- The character is exactly `'0'` or `'1'` (R70, D25). -/
def isBinaryChar (c : Char) : Bool := c == '0' || c == '1'

/-- `is_binary(s)`; true for the empty string (R70). -/
def isBinary (s : List Char) : Bool := s.all isBinaryChar

/-- `bits_vec(s)` for a string of length `n`: `v[n-1-k] = 1` when `s[k] = '1'` (R71). At width `M` it is
`msg_vec`, at width `L` it is `cw_vec`. -/
def bitsVec (n : Nat) (s : List Char) : BitVec n := vec n (fun b => s.getD (n - 1 - b) '0' == '1')

/-- The character of a bit. -/
def bitChar (b : Bool) : Char := if b then '1' else '0'

/-- `bits_str(v)`: the character at string index `k` is that of `v[n-1-k]` (R67, R71). At width `M` it is
`msg_str`, at width `L` it is `cw_str`. -/
def bitsStr {n : Nat} (v : BitVec n) : List Char :=
  (List.range n).map (fun k => bitChar (v.getLsbD (vecIndex n k)))

/-- The inverted character, `'0'` to `'1'` and back (R154). -/
def flipChar (c : Char) : Char := if c == '0' then '1' else '0'

/-- A data operand of a call of the host: the string given, or `cur` where it is omitted (R87, D20). -/
def hostOperand (given : Option (List Char)) (s : State) : List Char := given.getD s.cur

/-- The declared width of a string-level `encode`: the second argument, or the instance's width in the
one-argument form (R107, 90_conflicts.md C5). -/
def declaredWidth (given : Option Int) (s : State) : Int := given.getD s.m

end Sys2Proof.Machine
end

