-- ==== Sys2Proof/Machine/Ops.lean ====
section
/-! DEFINITION. How the result of a call reaches the caller, said once for every operation: a data result,
a decoder result, and an ERROR, which stands where taking an exception would (R169 to R172). There is
nothing to return from and nothing to restore (R173). -/

namespace Sys2Proof.Machine

/-- A call returned the data string `t`: it replaces `cur` wholesale (R28, D20). `ENCODE` and `FLIP` have
no non-data result, so `last` stays (log entry 11). -/
def returnData (t : List Char) (s : State) : State :=
  { s with cur := t, reply := some (.data t) }

/-- A decoder call returned the string `t`, a status and an optional string index (R135, D20). -/
def returnDecoded (t : List Char) (st : Status) (idx : Option Nat) (s : State) : State :=
  { s with cur := t, last := some (.decoded st idx), reply := some (.decoded t st idx) }

/-- A call raised the error `e` (R169): the error is its result, there is no data (R172), nothing is
stored in `cur` (D20, 95_test_vectors.md section 5), no operation state changes because there is none. -/
def raise (e : CodecError) (s : State) : State :=
  { s with last := some (.error e), reply := some (.error e) }

/-- The caller takes the wrapper's output ports. -/
def takePorts (o : CorePorts) (s : State) : State := { s with ports := some o }

/-- The outputs of an operation that produces only `y_o`: every output it does not produce is zero, and
`err_o = 00` (R84). -/
def dataPorts (m : Nat) (y : BitVec (codeLen m)) : CorePorts where
  y           := Word.of y
  status      := 0
  posValid    := false
  pos         := Word.of (0 : BitVec (rpar m))
  idx         := Word.of (0 : BitVec (idxWidth m))
  syndrome    := Word.of (0 : BitVec (rpar m))
  parMismatch := false
  err         := noErrorCode

/-- The outputs while the error `e` is reported: `err_o` is its code and every other output is a FREE
VALUE of the port's width (R172, D15, U6). `c` selects the free values (log entry 5). -/
def errorPorts (m c : Nat) (e : CodecError) : CorePorts where
  y           := Word.of (Config.freeBits c .y (codeLen m))
  status      := Config.freeBits c .status 2
  posValid    := (Config.freeBits c .posValid 1).getLsbD 0
  pos         := Word.of (Config.freeBits c .pos (rpar m))
  idx         := Word.of (Config.freeBits c .idx (idxWidth m))
  syndrome    := Word.of (Config.freeBits c .syndrome (rpar m))
  parMismatch := (Config.freeBits c .parMismatch 1).getLsbD 0
  err         := e.code

/-- A request on the wrapper raised the error `e`: delivered as the result of the call (R169), reported on
`err_o`; the model's counter advances so that the next free values are fresh. -/
def raiseOnPorts (e : CodecError) (s : State) : State :=
  { takePorts (errorPorts s.m s.freshCount e) (raise e s) with freshCount := s.freshCount + 1 }

end Sys2Proof.Machine
end

