-- ==== Sys2Proof/Machine/Decoder.lean ====
section
/-! DEFINITION. The decoder family: the bit-level decoder (R120 to R133), the unit `secded_dec` with its
ports (R77, R131, R132), the string-level `decode` (R135), and the meaning of a `DECODE` request. -/

namespace Sys2Proof.Machine

/-- The results of one decoding (R120). -/
structure Decoded (m : Nat) where
  /-- The corrected codeword. -/
  y        : BitVec (codeLen m)
  status   : Status
  /-- The corrected Hamming position, if any (R131). -/
  pos      : Option Nat
  /-- The corrected string index, if any (R131). -/
  idx      : Option Nat
  syndrome : Nat
  mismatch : Bool
  deriving DecidableEq, Repr

/-- The corrected position: the syndrome, exactly when the status is `SingleBitCorrected` (R131). -/
def correctedPos (st : Status) (syn : Nat) : Option Nat :=
  match st with
  | .singleBitCorrected => some syn
  | .noError => none
  | .doubleErrorDetected => none
  | .unresolvable => none

/-- The corrector (R128, R130): the input with the bit at the reported position inverted, or the input
unchanged where no position is reported. -/
def correct {n : Nat} (x : BitVec n) (pos : Option Nat) : BitVec n :=
  match pos with
  | some p => toggle x p
  | none => x

/-- `DECODE(x)` (R120). -/
def decodeVec (m : Nat) (x : BitVec (codeLen m)) : Decoded m :=
  let syn := syndrome m x
  let mm := parityMismatch m x
  let st := classify m syn mm
  let pos := correctedPos st syn
  { y := correct x pos, status := st, pos := pos, idx := pos.map (sidx m), syndrome := syn, mismatch := mm }

/-- The output ports of the decoder unit (R77). -/
structure DecPorts (m : Nat) where
  /-- `cw_o[N:0]` -/
  cw          : BitVec (codeLen m)
  status      : BitVec 2
  posValid    : Bool
  pos         : BitVec (rpar m)
  idx         : BitVec (idxWidth m)
  syndrome    : BitVec (rpar m)
  parMismatch : Bool
  deriving DecidableEq, Repr

/-- The results on the ports: codes of R74, an absent position as zeros with `pos_valid_o = 0` (R131, D9),
syndrome and mismatch for every input (R132). -/
def Decoded.onPorts {m : Nat} (r : Decoded m) : DecPorts m where
  cw          := r.y
  status      := r.status.code
  posValid    := r.pos.isSome
  pos         := BitVec.ofNat (rpar m) (r.pos.getD 0)
  idx         := BitVec.ofNat (idxWidth m) (r.idx.getD 0)
  syndrome    := BitVec.ofNat (rpar m) r.syndrome
  parMismatch := r.mismatch

/-- Decoder unit `secded_dec` (R77). -/
def secdedDec (m : Nat) (cw : BitVec (codeLen m)) : DecPorts m := (decodeVec m cw).onPorts

/-- The decoder unit's outputs on the wrapper's ports, `y_o` carrying `cw_o` and `err_o = 00` (R84). -/
def DecPorts.onWrapper {m : Nat} (o : DecPorts m) : CorePorts where
  y           := Word.of o.cw
  status      := o.status
  posValid    := o.posValid
  pos         := Word.of o.pos
  idx         := Word.of o.idx
  syndrome    := Word.of o.syndrome
  parMismatch := o.parMismatch
  err         := noErrorCode

/-- String-level `decode(s)` (R135): corrected string, status, corrected string index. -/
def decodeStr (s : List Char) : Except CodecError (List Char × Status × Option Nat) :=
  if !isBinary s then .error .invalidInput
  else match lenParams s.length with
    | none => .error .invalidInput
    | some (m, _) =>
      let r := decodeVec m (bitsVec (codeLen m) s)
      .ok (bitsStr r.y, r.status, r.idx)

/-- `DECODE` on the wrapper (R84, R120); `idx` is ignored. -/
def execDecode (_idx a : Word) (s : State) : Host.Outcome State Fault Refusal :=
  let x := codewordOperand s.m a
  let r := decodeVec s.m x
  .next (takePorts (secdedDec s.m x).onWrapper (returnDecoded (bitsStr r.y) r.status r.idx s))

/-- A string-level `decode` call of the host (R87, R135). -/
def callDecode (t : Option (List Char)) (s : State) : State :=
  match decodeStr (hostOperand t s) with
  | .ok (u, st, idx) => returnDecoded u st idx s
  | .error e => raise e s

end Sys2Proof.Machine
end

