-- ==== Sys2Proof/Machine/Encoder.lean ====
section
/-! DEFINITION. The encoder family: the unit `secded_enc` (R76, R100 to R105), the string-level `encode`
(R107), and the meaning of an `ENCODE` request (R84). -/

namespace Sys2Proof.Machine

/-- Step 2, placement (R102): message character `j`, which is `d[M-1-j]`, at data position `dpos(j)`; so
data position `p` holds `d[M-1-didx(p)]` (R64). Placeholders and the overall bit are `0`; their value is
never read (R102). -/
def placeData (m : Nat) (d : BitVec m) : BitVec (codeLen m) :=
  vec (codeLen m) (fun p => p != 0 && !isPow2 p && d.getLsbD (m - 1 - didx p))

/-- Step 3, Hamming parity bits (R103): `c[2^i] = XOR{ c[p] : p in cover(i), p != 2^i }`. -/
def addParity (m : Nat) (c : BitVec (codeLen m)) : BitVec (codeLen m) :=
  vec (codeLen m) (fun p =>
    if isPow2 p then xorOver ((cover m (Nat.log2 p)).filter (fun q => q != p)) c.getLsbD
    else c.getLsbD p)

/-- Step 4, overall parity bit (R104): `c[0] = XOR{ c[p] : 1 <= p <= N }`. -/
def addOverall (m : Nat) (c : BitVec (codeLen m)) : BitVec (codeLen m) :=
  vec (codeLen m) (fun p => if p = 0 then xorOver (positions m) c.getLsbD else c.getLsbD p)

/-- `ENCODE(d)` (R100). Step 5 is no operation on the bus (R105). -/
def encodeVec (m : Nat) (d : BitVec m) : BitVec (codeLen m) := addOverall m (addParity m (placeData m d))

/-- Encoder unit `secded_enc` (R76): `cw_o` for `data_i`. -/
def secdedEnc (m : Nat) (data : BitVec m) : BitVec (codeLen m) := encodeVec m data

/-- String-level `encode(s, m)` (R107). -/
def encodeStr (s : List Char) (m : Int) : Except CodecError (List Char) :=
  if m < 1 then .error .invalidInput
  else if (s.length : Int) ≠ m then .error .invalidInput
  else if !isBinary s then .error .invalidInput
  else .ok (bitsStr (encodeVec m.toNat (bitsVec m.toNat s)))

/-- `ENCODE` on the wrapper (R84, R100): `y_o` carries the codeword; `idx` and `a[L-1:M]` are ignored. -/
def execEncode (_idx a : Word) (s : State) : Host.Outcome State Fault Refusal :=
  let c := secdedEnc s.m (messageOperand s.m a)
  .next (takePorts (dataPorts s.m c) (returnData (bitsStr c) s))

/-- A string-level `encode` call of the host (R87, R107). -/
def callEncode (t : Option (List Char)) (m : Option Int) (s : State) : State :=
  match encodeStr (hostOperand t s) (declaredWidth m s) with
  | .ok u => returnData u s
  | .error e => raise e s

end Sys2Proof.Machine
end

