-- ==== Sys2Proof/Machine/Injector.lean ====
section
/-! DEFINITION. The injector family: the bit-level `FLIP` (R150 to R152), the unit `secded_flip` with its
ports (R78), the string-level `flip_bit` (R154), and the meaning of a `FLIP` request. -/

namespace Sys2Proof.Machine

/-- `FLIP(v, k)` (R150): vector bit `n - 1 - k` inverted, or `IndexOutOfRange` (R152). -/
def flipVec {n : Nat} (v : BitVec n) (k : Int) : Except CodecError (BitVec n) :=
  if 0 ≤ k ∧ k < n then .ok (toggle v (vecIndex n k.toNat)) else .error .indexOutOfRange

/-- The output ports of the injector unit for operands of length `n` (R78). -/
structure FlipPorts (n : Nat) where
  /-- `bits_o[n-1:0]` -/
  bits : BitVec n
  /-- `err_o[1:0]` -/
  err  : BitVec 2
  deriving DecidableEq, Repr

/-- Injector unit `secded_flip` (R78): `idx_i` is unsigned, `IW = bitlen(n)` bits; while `err_o = 10`,
`bits_o` is a FREE VALUE selected by `c` (R152, log entry 5). -/
def secdedFlip {n : Nat} (c : Nat) (bits : BitVec n) (idx : BitVec (bitlen n)) : FlipPorts n :=
  match flipVec bits (idx.toNat : Int) with
  | .ok y => ⟨y, noErrorCode⟩
  | .error e => ⟨Config.freeBits c .y n, e.code⟩

/-- String-level `flip_bit(s, k)` (R154): the operand is examined before the index (R168). -/
def flipStr (s : List Char) (k : Int) : Except CodecError (List Char) :=
  if !isBinary s then .error .invalidInput
  else if k < 0 ∨ (s.length : Int) ≤ k then .error .indexOutOfRange
  else .ok (s.modify k.toNat flipChar)

/-- `FLIP` on the wrapper (R84, R150, R152): `idx >= L` raises `IndexOutOfRange`. -/
def execFlip (idx a : Word) (s : State) : Host.Outcome State Fault Refusal :=
  match flipVec (codewordOperand s.m a) ((indexOperand s.m idx).toNat : Int) with
  | .ok y => .next (takePorts (dataPorts s.m y) (returnData (bitsStr y) s))
  | .error e => .next (raiseOnPorts e s)

/-- A string-level `flip_bit` call of the host (R87, R154). -/
def callFlip (t : Option (List Char)) (k : Int) (s : State) : State :=
  match flipStr (hostOperand t s) k with
  | .ok u => returnData u s
  | .error e => raise e s

end Sys2Proof.Machine
end

