-- ==== Sys2Proof/Machine/Reserved.lean ====
section
/-! DEFINITION. The reserved operation code `op = 11` (R83). -/

namespace Sys2Proof.Machine

/-- "The wrapper answers it with `err_o = 01` (`InvalidInput`) and no data" (R83, U7; log entry 8). Every
other bit of the request is ignored. -/
def execReserved (_idx _a : Word) (s : State) : Host.Outcome State Fault Refusal :=
  .next (raiseOnPorts .invalidInput s)

end Sys2Proof.Machine
end

