-- ==== Sys2Proof/Machine/Dispatch.lean ====
section
/-! DEFINITION. The dispatch wrapper `secded_core` (R79): one arm per operation code (R82). -/

namespace Sys2Proof.Machine

def exec (i : Instr) (s : State) : Host.Outcome State Fault Refusal :=
  match i with
  | .encode idx a => Sys2Proof.Machine.execEncode idx a s
  | .decode idx a => Sys2Proof.Machine.execDecode idx a s
  | .flip idx a => Sys2Proof.Machine.execFlip idx a s
  | .reserved idx a => Sys2Proof.Machine.execReserved idx a s

end Sys2Proof.Machine
end

