-- ==== Sys2Proof/Machine/Step.lean ====
section
/-! DEFINITION. One step is one call of the caller, from its operands to its result (R195). -/

namespace Sys2Proof.Machine

/-- A request word on the wrapper (R50, R79): decoded afresh for every request, then run. -/
def runRequest (w : Word) (s : State) : Host.Outcome State Fault Refusal :=
  match decodeRequest s.m w with
  | .ok i => exec i s
  | .error .requestWidth => .fault .requestWidth

/-- The oldest pending call, taken off the caller's list and performed (R22, R195). With no call pending
nothing happens (log entry 6). -/
def step (s : State) : Host.Outcome State Fault Refusal :=
  match s.calls with
  | [] => .next s
  | .request w :: rest => runRequest w { s with calls := rest }
  | .encode t m :: rest => .next (callEncode t m { s with calls := rest })
  | .decode t :: rest => .next (callDecode t { s with calls := rest })
  | .flip t k :: rest => .next (callFlip t k { s with calls := rest })

/-- The state whose next call is the request word `w` of the opcode table (log entry 15). -/
def State.withFetchWord (s : State) (nbits w : Nat) : State :=
  { s with calls := .request (requestOfNat s.m nbits w) :: s.calls }

end Sys2Proof.Machine
end

