-- ==== Sys2Proof/Safety.lean ====
section
/-! DEFINITION. What a state of the machine must satisfy for every run from it to be safe, and what safe
means: no step stops (R200: "Every operation terminates, on every input, with a result or an error"). -/

namespace Sys2Proof.Machine

/-- The caller's call can be presented to an instance of data width `m`: a request word has the width of
the request port (R79, R85). A string-level call can always be made. -/
def Call.presentable (m : Nat) : Call → Bool
  | .request w => w.width == reqWidth m
  | .encode _ _ => true
  | .decode _ => true
  | .flip _ _ => true

/-- The values on the wrapper's output ports have the ports' widths (R79), `err_o` is never `11` (R75), and
without an error an absent position reads as zeros (R131, D9). -/
def CorePorts.legal (m : Nat) (o : CorePorts) : Bool :=
  o.y.width == codeLen m && o.pos.width == rpar m && o.idx.width == idxWidth m
    && o.syndrome.width == rpar m && o.err != 0b11#2
    && (o.err != noErrorCode || o.posValid
        || (o.pos == Word.of (0 : BitVec (rpar m)) && o.idx == Word.of (0 : BitVec (idxWidth m))))

/-- An invariant of the machine: every pending request can be presented, and the ports taken last are
legal. -/
def StateInv (s : State) : Prop :=
  (∀ c ∈ s.calls, c.presentable s.m = true) ∧ (∀ o, s.ports = some o → o.legal s.m = true)

/-- The step from `s` does not stop. -/
def Safe (s : State) : Prop := ∃ t, step s = .next t

end Sys2Proof.Machine
end

