-- ==== Sys2Proof/Certificates/Slice0/Obligations.lean ====
section
/-! DEFINITION. The statements for the provers. `s.m` is the data width of the instance of state `s`, so a
statement about every state is a statement about every data width `M >= 1` (R6). -/

open Sys2Proof Sys2Proof.Machine

/-! ## Predicates the statements share, written from the rules and not from the units -/

/-- `c` is what R100's three loops make of the message `d`. -/
def Sys2Proof.Spec.IsCodewordOf (m : Nat) (d : BitVec m) (c : BitVec (codeLen m)) : Prop :=
  (∀ j < m, c.getLsbD (dpos m j) = d.getLsbD (m - 1 - j)) ∧
  (∀ i < rpar m, c.getLsbD (2 ^ i) = xorOver ((cover m i).filter (fun p => p != 2 ^ i)) c.getLsbD) ∧
  c.getLsbD 0 = xorOver (positions m) c.getLsbD

/-- The status `st`, the corrected position `pos` and the returned word `y` are those of table 41-1 (R127,
with R129 in its second row) for the word `x`, its syndrome and its parity mismatch. -/
def Sys2Proof.Spec.ClassifiedAs (m : Nat) (x : BitVec (codeLen m)) (syn : Nat) (mm : Bool)
    (y : BitVec (codeLen m)) (st : Status) (pos : Option Nat) : Prop :=
  (syn = 0 → mm = false → st = .noError ∧ y = x ∧ pos = none) ∧
  (syn ≠ 0 → mm = true → syn ≤ numPositions m →
    st = .singleBitCorrected ∧ pos = some syn ∧
    ∀ p < codeLen m, y.getLsbD p = if p = syn then !x.getLsbD p else x.getLsbD p) ∧
  (syn ≠ 0 → mm = true → numPositions m < syn → st = .unresolvable ∧ y = x ∧ pos = none) ∧
  (syn = 0 → mm = true → st = .doubleErrorDetected ∧ y = x ∧ pos = none) ∧
  (syn ≠ 0 → mm = false → st = .unresolvable ∧ y = x ∧ pos = none)

/-- The number of ones of a vector of width `n`: the weight of an error vector (R12). -/
def Sys2Proof.Spec.weight {n : Nat} (e : BitVec n) : Nat := ((List.range n).filter e.getLsbD).length

/-- The call names its own operands: none of them is the host's `cur` (R87). -/
def Sys2Proof.Spec.namesItsOperands : Call → Bool
  | .request _ => true
  | .encode s _ => s.isSome
  | .decode s => s.isSome
  | .flip s _ => s.isSome

open Sys2Proof.Spec

/-! ## Sizes and positions -/

/-- R60, with its bound in closed form and table 30-1, which are the spec's own derivation there. -/
def Obligations.ParityWidthIsLeast : Prop :=
  (∀ m, m + rpar m + 1 ≤ 2 ^ rpar m ∧ ∀ r, m + r + 1 ≤ 2 ^ r → rpar m ≤ r) ∧
  (∀ m r, 1 ≤ r → (rpar m = r ↔ 2 ^ (r - 1) < m + r ∧ m + r + 1 ≤ 2 ^ r)) ∧
  rpar 0 = 0 ∧ rpar 1 = 2 ∧ rpar 8 = 4 ∧ rpar 16 = 5 ∧ rpar 32 = 6 ∧
  (∀ m, 2 ≤ m → m ≤ 4 → rpar m = 3) ∧ (∀ m, 5 ≤ m → m ≤ 11 → rpar m = 4) ∧
  (∀ m, 12 ≤ m → m ≤ 26 → rpar m = 5) ∧ (∀ m, 27 ≤ m → m ≤ 57 → rpar m = 6) ∧
  (∀ m, 58 ≤ m → m ≤ 120 → rpar m = 7) ∧ (∀ m, 121 ≤ m → m ≤ 247 → rpar m = 8)

/-- R61: the sizes of an instance and the three consequences the rule draws, the spec's own derivation. -/
def Obligations.DerivedSizesAreBounded : Prop :=
  ∀ m, 1 ≤ m →
    numPositions m = m + rpar m ∧ codeLen m = numPositions m + 1 ∧
    2 ^ (rpar m - 1) < numPositions m ∧ numPositions m < 2 ^ rpar m ∧
    (∀ i < rpar m, 1 ≤ 2 ^ i ∧ 2 ^ i ≤ numPositions m) ∧
    isPow2 (numPositions m) = false ∧ bitlen (numPositions m) = rpar m

/-- R62: the width pair is recovered from a codeword length exactly when the length is valid; uniqueness,
the closed form and the list are the spec's own derivation there. -/
def Obligations.CodewordLengthGivesWidths : Prop :=
  (∀ len m r, lenParams len = some (m, r) ↔ 1 ≤ m ∧ rpar m = r ∧ m + r + 1 = len) ∧
  (∀ n r r', 1 ≤ n - r → rpar (n - r) = r → 1 ≤ n - r' → rpar (n - r') = r' → r = r') ∧
  (∀ len, lenParams len =
    if 3 ≤ len - 1 ∧ isPow2 (len - 1) = false then some (len - 1 - bitlen (len - 1), bitlen (len - 1))
    else none) ∧
  (∀ len, len ≤ 40 → ((lenParams len).isSome = true ↔
    len = 4 ∨ (6 ≤ len ∧ len ≤ 8) ∨ (10 ≤ len ∧ len ≤ 16) ∨ (18 ≤ len ∧ len ≤ 32) ∨ 34 ≤ len))

/-- R64, with the count of R63: `dpos` lists the data positions in increasing order, `didx` is its
inverse, and neither depends on the width; `didx` in closed form is the spec's own derivation. -/
def Obligations.DataPositionsAreNumberedInOrder : Prop :=
  (∀ m, 1 ≤ m →
    (dataPositions m).length = m ∧ ((positions m).filter isPow2).length = rpar m ∧
    (∀ j < m, 1 ≤ dpos m j ∧ dpos m j ≤ numPositions m ∧ isPow2 (dpos m j) = false ∧
      didx (dpos m j) = j) ∧
    (∀ i j, i < j → j < m → dpos m i < dpos m j) ∧
    (∀ p, 1 ≤ p → p ≤ numPositions m → isPow2 p = false →
      didx p < m ∧ dpos m (didx p) = p ∧ didx p = p - 1 - bitlen p) ∧
    dpos m (m - 1) = numPositions m) ∧
  (∀ m m' j, j < m → j < m' → dpos m j = dpos m' j) ∧
  (∀ m, 5 ≤ m → dpos m 0 = 3 ∧ dpos m 1 = 5 ∧ dpos m 2 = 6 ∧ dpos m 3 = 7 ∧ dpos m 4 = 9)

/-- R65, with the lists of table 30-3; that no parity bit covers another is the spec's own derivation. -/
def Obligations.CoverSetsAreTheIndexBits : Prop :=
  (∀ m i p, 1 ≤ m → i < rpar m →
    (p ∈ cover m i ↔ 1 ≤ p ∧ p ≤ numPositions m ∧ p.testBit i = true) ∧
    2 ^ i ∈ cover m i ∧ (p ∈ cover m i → p ≠ 2 ^ i → isPow2 p = false) ∧ 0 ∉ cover m i) ∧
  cover 8 0 = [1, 3, 5, 7, 9, 11] ∧ cover 8 1 = [2, 3, 6, 7, 10, 11] ∧ cover 8 2 = [4, 5, 6, 7, 12] ∧
  cover 8 3 = [8, 9, 10, 11, 12]

/-! ## The operations on the wrapper: each completes, and with what result -/

/-- R100, R103, R104: an `ENCODE` request answers, `y_o` is the codeword of `a[M-1:0]`, every parity check of
it is even, and so is the whole word; the all-zero message gives the all-zero codeword. -/
def Obligations.EncodeRequestGivesCodeword : Prop :=
  ∀ (s : State) (idx a : Word), ∃ t c,
    exec (.encode idx a) s = .next t ∧
    IsCodewordOf s.m ((a.read (codeLen s.m)).setWidth s.m) c ∧
    (∀ i < rpar s.m, xorOver (cover s.m i) c.getLsbD = false) ∧
    xorOver (List.range (codeLen s.m)) c.getLsbD = false ∧
    ((a.read (codeLen s.m)).setWidth s.m = 0 → c = 0) ∧
    (∃ o, t.ports = some o ∧ o.y = Word.of c ∧ o.err = 0b00#2) ∧
    t.reply = some (.data (bitsStr c))

/-- R120, R122 to R124, R127, R130, R131, R133: a `DECODE` request answers with the syndrome, the parity mismatch, the status,
the corrected word and the optional position of its operand. -/
def Obligations.DecodeRequestClassifiesAndCorrects : Prop :=
  ∀ (s : State) (idx a : Word), ∃ t o y st pos,
    exec (.decode idx a) s = .next t ∧ t.ports = some o ∧
    (let x := a.read (codeLen s.m)
     let syn := o.syndrome.bits.toNat
     o.syndrome.width = rpar s.m ∧
     (∀ i < rpar s.m, o.syndrome.bits.getLsbD i = xorOver (cover s.m i) x.getLsbD) ∧
     o.parMismatch = (xorOver (positions s.m) x.getLsbD != x.getLsbD 0) ∧
     ClassifiedAs s.m x syn o.parMismatch y st pos) ∧
    o.y = Word.of y ∧ o.status = st.code ∧ o.posValid = pos.isSome ∧
    o.pos = Word.of (BitVec.ofNat (rpar s.m) (pos.getD 0)) ∧ o.pos.bits.toNat = pos.getD 0 ∧
    o.idx.width = idxWidth s.m ∧ o.idx.bits.toNat = (pos.map (fun p => numPositions s.m - p)).getD 0 ∧
    o.err = 0b00#2 ∧
    t.reply = some (.decoded (bitsStr y) st (pos.map (fun p => numPositions s.m - p)))

/-- R150: a `FLIP` request whose index is in range answers with its operand, vector bit `L - 1 - k` inverted
and every other bit kept; one whose index is out of range answers with `IndexOutOfRange`; and the operation
itself, on a bit sequence of any length. -/
def Obligations.FlipRequestInvertsOneBit : Prop :=
  (∀ (s : State) (idx a : Word), (idx.read (idxWidth s.m)).toNat < codeLen s.m → ∃ t y,
    exec (.flip idx a) s = .next t ∧
    (∀ b < codeLen s.m, y.getLsbD b =
      if b = codeLen s.m - 1 - (idx.read (idxWidth s.m)).toNat then !(a.read (codeLen s.m)).getLsbD b
      else (a.read (codeLen s.m)).getLsbD b) ∧
    (∃ o, t.ports = some o ∧ o.y = Word.of (y : BitVec (codeLen s.m)) ∧ o.err = 0b00#2) ∧
    t.reply = some (.data (bitsStr y))) ∧
  (∀ (s : State) (idx a : Word), codeLen s.m ≤ (idx.read (idxWidth s.m)).toNat → ∃ t,
    exec (.flip idx a) s = .next t ∧ t.reply = some (.error .indexOutOfRange)) ∧
  (∀ (n : Nat) (v : BitVec n) (k : Nat), k < n → ∃ y, flipVec v k = .ok y ∧
    ∀ b < n, y.getLsbD b = if b = n - 1 - k then !v.getLsbD b else v.getLsbD b) ∧
  (∀ (n : Nat) (v : BitVec n) (k : Int), ¬ (0 ≤ k ∧ k < n) → flipVec v k = .error .indexOutOfRange)

/-- R152: on the wrapper a `FLIP` request whose index is out of range reports `err_o = 10` and returns no
data; and a negative index or one at or past the length fails at every length. -/
def Obligations.FlipIndexOutOfRangeFails : Prop :=
  (∀ (s : State) (idx a : Word), codeLen s.m ≤ (idx.read (idxWidth s.m)).toNat → ∃ t,
    exec (.flip idx a) s = .next t ∧ (∃ o, t.ports = some o ∧ o.err = 0b10#2) ∧
    t.reply = some (.error .indexOutOfRange)) ∧
  (∀ (n : Nat) (v : BitVec n) (k : Int), k < 0 ∨ (n : Int) ≤ k → flipVec v k = .error .indexOutOfRange) ∧
  (∀ (n : Nat) (v : BitVec n) (k : Int), 0 ≤ k → k < (n : Int) → ∃ y, flipVec v k = .ok y)

/-- R78, R85 (d): the injector unit on its own, at every operand length: `bits_o` and `err_o` for an index in
range, `err_o = 10` for one out of range, and an out-of-range value the index port can always carry. -/
def Obligations.InjectorUnitPorts : Prop :=
  ∀ (n c : Nat) (v : BitVec n) (k : BitVec (bitlen n)),
    (k.toNat < n → (secdedFlip c v k).err = 0b00#2 ∧ ∀ b < n,
      (secdedFlip c v k).bits.getLsbD b = if b + k.toNat + 1 = n then !v.getLsbD b else v.getLsbD b) ∧
    (n ≤ k.toNat → (secdedFlip c v k).err = 0b10#2) ∧
    (BitVec.ofNat (bitlen n) n).toNat = n

/-- R83, U7: the reserved operation code is answered with `InvalidInput` and no data, and every request
word with `op = 11` decodes to it. -/
def Obligations.ReservedRequestAnswersInvalidInput : Prop :=
  (∀ (s : State) (idx a : Word), ∃ t,
    exec (.reserved idx a) s = .next t ∧ (∃ o, t.ports = some o ∧ o.err = 0b01#2) ∧
    t.reply = some (.error .invalidInput)) ∧
  (∀ (m : Nat) (w : Word), w.width = reqWidth m →
    w.bits.getLsbD (idxWidth m + codeLen m) = true → w.bits.getLsbD (idxWidth m + codeLen m + 1) = true →
    ∃ idx a, decodeRequest m w = .ok (.reserved idx a))

/-- R84: unread fields have no effect, the assembler writes them as zero, each unit reads its fields and its
result is on `y_o`, unproduced outputs are zero. -/
def Obligations.UnreadFieldsAndUnproducedOutputs : Prop :=
  (∀ (s : State) (idx idx' a a' : Word),
    (a.read (codeLen s.m)).setWidth s.m = (a'.read (codeLen s.m)).setWidth s.m →
    exec (.encode idx a) s = exec (.encode idx' a') s) ∧
  (∀ (s : State) (idx idx' a : Word), exec (.decode idx a) s = exec (.decode idx' a) s) ∧
  (∀ (s : State) (i : Instr) (t : State) (o : CorePorts),
    (i = .encode i.idx i.a ∨ i = .flip i.idx i.a) → exec i s = .next t → t.ports = some o →
    o.err = 0b00#2 →
    o.status = 0 ∧ o.posValid = false ∧ o.pos = Word.of (0 : BitVec (rpar s.m)) ∧
    o.idx = Word.of (0 : BitVec (idxWidth s.m)) ∧ o.syndrome = Word.of (0 : BitVec (rpar s.m)) ∧
    o.parMismatch = false) ∧
  (∀ (s : State) (idx a : Word), ∃ t o, exec (.encode idx a) s = .next t ∧ t.ports = some o ∧
    o.y = Word.of (secdedEnc s.m ((a.read (codeLen s.m)).setWidth s.m)) ∧ o.err = 0b00#2) ∧
  (∀ (s : State) (idx a : Word), ∃ t o, exec (.decode idx a) s = .next t ∧ t.ports = some o ∧
    o.y = Word.of (secdedDec s.m (a.read (codeLen s.m))).cw ∧ o.err = 0b00#2) ∧
  (∀ (s : State) (idx a : Word) (c : Nat), ∃ t o, exec (.flip idx a) s = .next t ∧ t.ports = some o ∧
    o.err = (secdedFlip c (a.read (codeLen s.m)) (idx.read (idxWidth s.m))).err ∧
    (o.err = 0b00#2 → o.y = Word.of (secdedFlip c (a.read (codeLen s.m)) (idx.read (idxWidth s.m))).bits)) ∧
  (∀ (m : Nat) (d : BitVec m) (x : BitVec (codeLen m)) (k : BitVec (idxWidth m)),
    decodeRequest m (asmEncode m d) =
      .ok (.encode (Word.of (0 : BitVec (idxWidth m))) (Word.of (d.setWidth (codeLen m)))) ∧
    decodeRequest m (asmDecode m x) = .ok (.decode (Word.of (0 : BitVec (idxWidth m))) (Word.of x)) ∧
    decodeRequest m (asmFlip m x k) = .ok (.flip (Word.of k) (Word.of x)))

/-- R165, table 60-1: which operation reports which error, on the wrapper and at the string level. -/
def Obligations.ErrorsAreThoseOfTheTable : Prop :=
  (∀ (s t : State) (i : Instr) (o : CorePorts), exec i s = .next t → t.ports = some o →
    (i = .encode i.idx i.a → o.err = 0b00#2) ∧ (i = .decode i.idx i.a → o.err = 0b00#2) ∧
    (i = .flip i.idx i.a →
      o.err = if codeLen s.m ≤ (i.idx.read (idxWidth s.m)).toNat then 0b10#2 else 0b00#2) ∧
    (i = .reserved i.idx i.a → o.err = 0b01#2)) ∧
  (∀ (s : List Char) (m : Int) (e : CodecError), encodeStr s m = .error e ↔
    e = .invalidInput ∧ ((s.length : Int) ≠ m ∨ isBinary s = false ∨ m < 1)) ∧
  (∀ (s : List Char) (e : CodecError), decodeStr s = .error e ↔
    e = .invalidInput ∧ (lenParams s.length = none ∨ isBinary s = false)) ∧
  (∀ (s : List Char) (k : Int) (e : CodecError), flipStr s k = .error e ↔
    (e = .invalidInput ∧ isBinary s = false) ∨
    (e = .indexOutOfRange ∧ isBinary s = true ∧ (k < 0 ∨ (s.length : Int) ≤ k)))

/-! ## Frames -/

/-- What a request that succeeds leaves as it was: the data width, the caller's other calls, the model's
own counter; and the last non-data result, where the operation has none (log entry 11). There is no
memory, register, flag or program counter to keep (R20 to R26). -/
def Obligations.SuccessfulRequestFrame : Prop :=
  ∀ (s t : State) (i : Instr) (o : CorePorts), exec i s = .next t → t.ports = some o → o.err = 0b00#2 →
    t.width = s.width ∧ t.calls = s.calls ∧ t.freshCount = s.freshCount ∧
    (i = .encode i.idx i.a ∨ i = .flip i.idx i.a → t.last = s.last)

/-- What a request that fails leaves as it was: the data width, the caller's other calls and `cur`; its
result is the error alone (R172; `cur` and `last` as D20 has it). -/
def Obligations.FailedRequestFrame : Prop :=
  ∀ (s t : State) (i : Instr) (o : CorePorts), exec i s = .next t → t.ports = some o → o.err ≠ 0b00#2 →
    t.width = s.width ∧ t.calls = s.calls ∧ t.cur = s.cur ∧
    ∃ e, o.err = e.code ∧ t.last = some (.error e) ∧ t.reply = some (.error e)

/-- What a request leaves with the host: data replaces `cur`, a decoding also sets `last`, an error is `last`
and stores nothing (R28, R87 and D20 in the spec's programs; for `last` log entry 11, the model's
reading). -/
def Obligations.HostStateAfterRequest : Prop :=
  ∀ (s t : State) (i : Instr), exec i s = .next t →
    (∀ u, t.reply = some (.data u) → t.cur = u ∧ t.last = s.last) ∧
    (∀ u st k, t.reply = some (.decoded u st k) → t.cur = u ∧ t.last = some (.decoded st k)) ∧
    (∀ e, t.reply = some (.error e) → t.cur = s.cur ∧ t.last = some (.error e))

/-- What a string-level call leaves as it was: the data width, the wrapper's ports (log entry 12), the
model's own counter, and on an error `cur`; the caller's list loses the one call. -/
def Obligations.StringCallFrame : Prop :=
  ∀ (s t : State) (c : Call) (rest : List Call), s.calls = c :: rest → (∀ w, c ≠ .request w) →
    step s = .next t →
    t.width = s.width ∧ t.calls = rest ∧ t.ports = s.ports ∧ t.freshCount = s.freshCount ∧
    (∀ e, t.reply = some (.error e) → t.cur = s.cur ∧ t.last = some (.error e)) ∧
    (∀ u, t.reply = some (.data u) → t.cur = u ∧ t.last = s.last) ∧
    (∀ u st k, t.reply = some (.decoded u st k) → t.cur = u ∧ t.last = some (.decoded st k))

/-! ## The code -/

/-- R108, (a) to (f), laws the spec derives from R100 to R104. -/
def Obligations.EncoderLaws : Prop :=
  ∀ m, 1 ≤ m →
    (∀ (d : BitVec m) (j : Nat), j < m → (encodeVec m d).getLsbD (dpos m j) = d.getLsbD (m - 1 - j)) ∧
    (∀ d d' : BitVec m, encodeVec m (d ^^^ d') = encodeVec m d ^^^ encodeVec m d') ∧
    encodeVec m 0 = 0 ∧
    (∀ (d : BitVec m) (i : Nat), i < rpar m → xorOver (cover m i) (encodeVec m d).getLsbD = false) ∧
    (∀ d : BitVec m,
      ((encodeVec m d).getLsbD 0 ^^ xorOver (positions m) (encodeVec m d).getLsbD) = false) ∧
    (∀ d : BitVec m, (decodeVec m (encodeVec m d)).syndrome = 0 ∧
      (decodeVec m (encodeVec m d)).mismatch = false ∧
      (decodeVec m (encodeVec m d)).status = .noError) ∧
    (∀ d d' : BitVec m, encodeVec m d = encodeVec m d' → d = d')

/-- R136, derived in the spec: the syndrome of a codeword plus an error vector is the exclusive-or of the positions in error,
and the mismatch is the parity of the error's weight; neither depends on the codeword. -/
def Obligations.SyndromeNamesTheErrorVector : Prop :=
  ∀ m, 1 ≤ m → ∀ (d : BitVec m) (e : BitVec (codeLen m)),
    syndrome m (encodeVec m d ^^^ e) =
      ((positions m).filter e.getLsbD).foldr (fun p acc => p ^^^ acc) 0 ∧
    parityMismatch m (encodeVec m d ^^^ e) = decide (weight e % 2 = 1)

/-- R156, derived in the spec (R137 (b) to (d)): what the decoder makes of one flip at a numbered position, of a flip of the overall parity bit,
and of two flips. -/
def Obligations.DecodingAfterFlips : Prop :=
  ∀ m, 1 ≤ m → ∀ d : BitVec m,
    (∀ k : Nat, k + 1 ≤ numPositions m → ∃ x, flipVec (encodeVec m d) k = .ok x ∧
      (decodeVec m x).y = encodeVec m d ∧ (decodeVec m x).status = .singleBitCorrected ∧
      (decodeVec m x).pos = some (numPositions m - k) ∧ (decodeVec m x).idx = some k) ∧
    (∃ x, flipVec (encodeVec m d) (numPositions m) = .ok x ∧ (decodeVec m x).y = x ∧
      (decodeVec m x).status = .doubleErrorDetected ∧ (decodeVec m x).pos = none ∧
      (decodeVec m x).idx = none) ∧
    (∀ k j : Nat, k < codeLen m → j < codeLen m → k ≠ j → ∃ x x',
      flipVec (encodeVec m d) k = .ok x ∧ flipVec x j = .ok x' ∧
      (decodeVec m x').status = .unresolvable ∧ (decodeVec m x').y = x' ∧ (decodeVec m x').pos = none)

/-- R137 (e) to (g), derived in the spec: by the weight of the error vector, an odd number of flips is never taken for a clean
word, an even number is never corrected, three flips are classified by their syndrome, and four pass as
clean exactly when their syndrome is zero. -/
def Obligations.HeavyErrorsAreClassifiedByWeight : Prop :=
  ∀ m, 1 ≤ m → ∀ (d : BitVec m) (e : BitVec (codeLen m)),
    (let r := decodeVec m (encodeVec m d ^^^ e)
     let syn := ((positions m).filter e.getLsbD).foldr (fun p acc => p ^^^ acc) 0
     (weight e % 2 = 1 → r.mismatch = true ∧
       ((syn = 0 ∧ r.status = .doubleErrorDetected) ∨
        (1 ≤ syn ∧ syn ≤ numPositions m ∧ r.status = .singleBitCorrected ∧ r.pos = some syn) ∨
        (numPositions m < syn ∧ r.status = .unresolvable))) ∧
     (weight e % 2 = 0 → r.mismatch = false ∧
       ((syn = 0 ∧ r.status = .noError) ∨ (syn ≠ 0 ∧ r.status = .unresolvable))) ∧
     (weight e = 3 → r.status = .singleBitCorrected → r.y ≠ encodeVec m d ∧
       weight (r.y ^^^ encodeVec m d) = 4))

/-- R139, derived in the spec: decoding is idempotent on its own output. -/
def Obligations.DecodingIsIdempotent : Prop :=
  ∀ m, 1 ≤ m → ∀ x : BitVec (codeLen m),
    (((decodeVec m x).status = .singleBitCorrected ∨ (decodeVec m x).status = .noError) →
      (decodeVec m (decodeVec m x).y).y = (decodeVec m x).y ∧
      (decodeVec m (decodeVec m x).y).status = .noError ∧
      (decodeVec m (decodeVec m x).y).pos = none) ∧
    (((decodeVec m x).status = .doubleErrorDetected ∨ (decodeVec m x).status = .unresolvable) →
      (decodeVec m x).y = x ∧ decodeVec m (decodeVec m x).y = decodeVec m x)

/-- R129: a syndrome that names no position. -/
def Obligations.SyndromeAboveTheLastPosition : Prop :=
  (∀ m, 1 ≤ m → ∀ x : BitVec (codeLen m),
    numPositions m < syndrome m x → parityMismatch m x = true →
    (decodeVec m x).status = .unresolvable ∧ (decodeVec m x).y = x ∧ (decodeVec m x).pos = none) ∧
  (∀ m, 1 ≤ m → ∀ (d : BitVec m) (e : BitVec (codeLen m)),
    numPositions m < syndrome m (encodeVec m d ^^^ e) →
    parityMismatch m (encodeVec m d ^^^ e) = true → 3 ≤ weight e) ∧
  (∀ m, numPositions m = 2 ^ rpar m - 1 → ∀ x : BitVec (codeLen m), syndrome m x ≤ numPositions m) ∧
  (∀ m, m = 1 ∨ m = 4 ∨ m = 11 ∨ m = 26 ∨ m = 57 ∨ m = 120 → numPositions m = 2 ^ rpar m - 1)

/-- R155, (a) to (d), derived in the spec. -/
def Obligations.FlipLaws : Prop :=
  ∀ (n : Nat) (v : BitVec n) (k j : Nat), k < n → j < n →
    (∃ x, flipVec v k = .ok x ∧ flipVec x k = .ok v ∧ x ≠ v ∧ weight (x ^^^ v) = 1 ∧
      x = v ^^^ BitVec.twoPow n (n - 1 - k)) ∧
    (∃ x y z, flipVec v k = .ok x ∧ flipVec x j = .ok z ∧ flipVec v j = .ok y ∧ flipVec y k = .ok z)

/-- R109, derived in the spec: the encoder for `M = 8` as exclusive-or trees, `msg[j] = d[7-j]`. -/
def Obligations.EncoderTreesForEightBits : Prop :=
  ∀ d : BitVec 8,
    let c := fun p => (encodeVec 8 d).getLsbD p
    let msg := fun j => d.getLsbD (7 - j)
    c 3 = msg 0 ∧ c 5 = msg 1 ∧ c 6 = msg 2 ∧ c 7 = msg 3 ∧ c 9 = msg 4 ∧ c 10 = msg 5 ∧ c 11 = msg 6 ∧
    c 12 = msg 7 ∧
    c 1 = (msg 0 ^^ msg 1 ^^ msg 3 ^^ msg 4 ^^ msg 6) ∧
    c 2 = (msg 0 ^^ msg 2 ^^ msg 3 ^^ msg 5 ^^ msg 6) ∧
    c 4 = (msg 1 ^^ msg 2 ^^ msg 3 ^^ msg 7) ∧
    c 8 = (msg 4 ^^ msg 5 ^^ msg 6 ^^ msg 7) ∧
    c 0 = (c 1 ^^ c 2 ^^ c 3 ^^ c 4 ^^ c 5 ^^ c 6 ^^ c 7 ^^ c 8 ^^ c 9 ^^ c 10 ^^ c 11 ^^ c 12) ∧
    c 0 = (msg 0 ^^ msg 1 ^^ msg 2 ^^ msg 4 ^^ msg 5 ^^ msg 7)

/-- R140, derived in the spec: the syndrome calculator and the parity checker for `M = 8`. -/
def Obligations.DecoderTreesForEightBits : Prop :=
  ∀ x : BitVec (codeLen 8),
    let b := fun p => x.getLsbD p
    let s0 := b 1 ^^ b 3 ^^ b 5 ^^ b 7 ^^ b 9 ^^ b 11
    let s1 := b 2 ^^ b 3 ^^ b 6 ^^ b 7 ^^ b 10 ^^ b 11
    let s2 := b 4 ^^ b 5 ^^ b 6 ^^ b 7 ^^ b 12
    let s3 := b 8 ^^ b 9 ^^ b 10 ^^ b 11 ^^ b 12
    let q := b 1 ^^ b 2 ^^ b 3 ^^ b 4 ^^ b 5 ^^ b 6 ^^ b 7 ^^ b 8 ^^ b 9 ^^ b 10 ^^ b 11 ^^ b 12
    (decodeVec 8 x).syndrome = 8 * s3.toNat + 4 * s2.toNat + 2 * s1.toNat + s0.toNat ∧
    (decodeVec 8 x).mismatch = (q ^^ b 0)

/-! ## The string level -/

/-- R71: strings and vectors convert into each other without loss, character `k` being bit `n-1-k`. -/
def Obligations.StringsAndVectorsAreInverse : Prop :=
  (∀ (n : Nat) (v : BitVec n), (bitsStr v).length = n ∧ isBinary (bitsStr v) = true ∧
    bitsVec n (bitsStr v) = v) ∧
  (∀ s : List Char, isBinary s = true → bitsStr (bitsVec s.length s) = s) ∧
  (∀ (s : List Char) (k : Nat), isBinary s = true → k < s.length →
    ((bitsVec s.length s).getLsbD (s.length - 1 - k) = true ↔ s[k]? = some '1'))

/-- R107: when `encode(s, m)` fails, what it returns otherwise, and the width of the one-argument form. -/
def Obligations.StringEncode : Prop :=
  (∀ (s : List Char) (m : Int), encodeStr s m = .error .invalidInput ↔
    m < 1 ∨ (s.length : Int) ≠ m ∨ ∃ c ∈ s, c ≠ '0' ∧ c ≠ '1') ∧
  (∀ (s : List Char) (m : Nat), 1 ≤ m → s.length = m → (∀ c ∈ s, c = '0' ∨ c = '1') →
    ∃ t, encodeStr s m = .ok t ∧ t = bitsStr (encodeVec m (bitsVec m s)) ∧ t.length = m + rpar m + 1 ∧
      ∀ j < m, t[numPositions m - dpos m j]? = s[j]?) ∧
  (∀ (s : List Char) (m : Int) (e : CodecError), encodeStr s m = .error e → e = .invalidInput) ∧
  (∀ (s : State) (u : List Char) (rest : List Call), s.calls = .encode (some u) none :: rest →
    step s = step { s with calls := .encode (some u) (some s.m) :: rest })

/-- R135: when `decode(s)` fails, and what it returns otherwise. -/
def Obligations.StringDecode : Prop :=
  (∀ s : List Char, decodeStr s = .error .invalidInput ↔
    (∃ c ∈ s, c ≠ '0' ∧ c ≠ '1') ∨ ∀ m, 1 ≤ m → m + rpar m + 1 ≠ s.length) ∧
  (∀ (s : List Char) (m : Nat), 1 ≤ m → s.length = codeLen m → (∀ c ∈ s, c = '0' ∨ c = '1') →
    decodeStr s = .ok (bitsStr (decodeVec m (bitsVec (codeLen m) s)).y,
      (decodeVec m (bitsVec (codeLen m) s)).status, (decodeVec m (bitsVec (codeLen m) s)).idx)) ∧
  (∀ (s u : List Char) (st : Status) (k : Option Nat), decodeStr s = .ok (u, st, k) →
    u.length = s.length ∧ (k.isSome = true ↔ st = .singleBitCorrected))

/-- R154: `flip_bit(s, k)`, its errors in their order, and the bit-level form it equals. -/
def Obligations.StringFlip : Prop :=
  (∀ (s : List Char) (k : Int), (∃ c ∈ s, c ≠ '0' ∧ c ≠ '1') → flipStr s k = .error .invalidInput) ∧
  (∀ (s : List Char) (k : Int), (∀ c ∈ s, c = '0' ∨ c = '1') → k < 0 ∨ (s.length : Int) ≤ k →
    flipStr s k = .error .indexOutOfRange) ∧
  (∀ (s : List Char) (k : Nat), (∀ c ∈ s, c = '0' ∨ c = '1') → k < s.length →
    ∃ t, flipStr s k = .ok t ∧ t.length = s.length ∧
      t[k]? = some (if s[k]? = some '0' then '1' else '0') ∧ (∀ j, j ≠ k → t[j]? = s[j]?) ∧
      ∃ v, flipVec (bitsVec s.length s) k = .ok v ∧ t = bitsStr v)

/-- R168: of several errors that apply, the operand's is reported before the index's, and the reserved
operation code before either. -/
def Obligations.ErrorPriority : Prop :=
  (∀ (s : List Char) (k : Int), isBinary s = false → (k < 0 ∨ (s.length : Int) ≤ k) →
    flipStr s k = .error .invalidInput) ∧
  (∀ (s t : State) (idx a : Word), codeLen s.m ≤ (idx.read (idxWidth s.m)).toNat →
    exec (.reserved idx a) s = .next t → t.reply = some (.error .invalidInput))

/-- R138, derived in the spec: the properties of the source's section 8 as they hold, on the source's own string interface. -/
def Obligations.StringRoundTrips : Prop :=
  ∀ (m : Nat) (msg c : List Char), encodeStr msg m = .ok c →
    decodeStr c = .ok (c, .noError, none) ∧
    (∀ i : Nat, i + 1 ≤ numPositions m → ∃ x, flipStr c i = .ok x ∧
      decodeStr x = .ok (c, .singleBitCorrected, some i) ∧ flipStr x i = .ok c) ∧
    (∃ x, flipStr c (numPositions m) = .ok x ∧ decodeStr x = .ok (x, .doubleErrorDetected, none)) ∧
    (∀ i j : Nat, i < c.length → j < c.length → i ≠ j → ∃ x x', flipStr c i = .ok x ∧
      flipStr x j = .ok x' ∧ decodeStr x' = .ok (x', .unresolvable, none))

/-- R9, R72: the two levels compute the same function. A request assembled from a valid string and the
string-level call on that string leave the host with the same `cur`, `last` and `reply`; that a request
sets `cur` and `last` is log entry 11, the model's reading. -/
def Obligations.BothLevelsAgree : Prop :=
  ∀ (s : State) (str : List Char) (rest : List Call), isBinary str = true →
    (str.length = s.m → ∃ t u,
      step { s with calls := .request (asmEncode s.m (bitsVec s.m str)) :: rest } = .next t ∧
      step { s with calls := .encode (some str) none :: rest } = .next u ∧
      t.cur = u.cur ∧ t.last = u.last ∧ t.reply = u.reply) ∧
    (str.length = codeLen s.m → ∃ t u,
      step { s with calls := .request (asmDecode s.m (bitsVec (codeLen s.m) str)) :: rest } = .next t ∧
      step { s with calls := .decode (some str) :: rest } = .next u ∧
      t.cur = u.cur ∧ t.last = u.last ∧ t.reply = u.reply) ∧
    (str.length = codeLen s.m → ∀ k : BitVec (idxWidth s.m), ∃ t u,
      step { s with calls := .request (asmFlip s.m (bitsVec (codeLen s.m) str) k) :: rest } = .next t ∧
      step { s with calls := .flip (some str) k.toNat :: rest } = .next u ∧
      t.cur = u.cur ∧ t.last = u.last ∧ t.reply = u.reply)

/-! ## The request word -/

/-- Decoding an encoded well-formed operation gives it back, with every value of every field (R79, R82). -/
def Obligations.DecodeOfEncodeIsTheOperation : Prop :=
  ∀ (m : Nat) (i : Instr), WellFormed m i = true → decodeRequest m (encodeRequest m i) = .ok i

/-- Every word of the request port's width is a request, is well-formed, and is the only word of it; a word
of another width is no request (R79, R85). -/
def Obligations.EncodeOfDecodeIsTheWord : Prop :=
  (∀ (m : Nat) (w : Word) (i : Instr), decodeRequest m w = .ok i →
    WellFormed m i = true ∧ encodeRequest m i = w) ∧
  (∀ (m : Nat) (w : Word), (∃ i, decodeRequest m w = .ok i) ↔ w.width = 2 + idxWidth m + codeLen m)

/-- R82 (table 30-6): words written out bit by bit from the programs of 95_test_vectors.md section 5. -/
def Obligations.WordsOfTheSpecDecode : Prop :=
  decodeRequest 8 (Word.of 0b00_0000_0000010110010#19) =
    .ok (.encode (Word.of 0b0000#4) (Word.of 0b0000010110010#13)) ∧
  decodeRequest 8 (Word.of 0b01_0000_0100011001010#19) =
    .ok (.decode (Word.of 0b0000#4) (Word.of 0b0100011001010#13)) ∧
  decodeRequest 8 (Word.of 0b10_0100_0100111001010#19) =
    .ok (.flip (Word.of 0b0100#4) (Word.of 0b0100111001010#13)) ∧
  decodeRequest 8 (Word.of 0b11_0000_0000000000000#19) =
    .ok (.reserved (Word.of 0b0000#4) (Word.of 0b0000000000000#13)) ∧
  decodeRequest 16 (Word.of 0b10_00101_0101001010101001001110#29) =
    .ok (.flip (Word.of 0b00101#5) (Word.of 0b0101001010101001001110#22))

/-- R7 with table 00-1, and the request widths of R79. -/
def Obligations.ReferenceSizes : Prop :=
  (∀ m, numPositions m = m + rpar m ∧ codeLen m = m + rpar m + 1 ∧ idxWidth m = bitlen (codeLen m) ∧
    reqWidth m = 2 + idxWidth m + codeLen m) ∧
  (rpar 8 = 4 ∧ numPositions 8 = 12 ∧ codeLen 8 = 13 ∧ idxWidth 8 = 4 ∧ reqWidth 8 = 19) ∧
  (rpar 16 = 5 ∧ numPositions 16 = 21 ∧ codeLen 16 = 22 ∧ idxWidth 16 = 5 ∧ reqWidth 16 = 29) ∧
  (rpar 32 = 6 ∧ numPositions 32 = 38 ∧ codeLen 32 = 39 ∧ idxWidth 32 = 6 ∧ reqWidth 32 = 47)

/-- R74, R75: the codes of the statuses and of the errors, and that `11` is the code of no error. -/
def Obligations.PortCodes : Prop :=
  Status.noError.code = 0b00#2 ∧ Status.singleBitCorrected.code = 0b01#2 ∧
  Status.doubleErrorDetected.code = 0b10#2 ∧ Status.unresolvable.code = 0b11#2 ∧
  noErrorCode = 0b00#2 ∧ CodecError.invalidInput.code = 0b01#2 ∧
  CodecError.indexOutOfRange.code = 0b10#2 ∧ ∀ e : CodecError, e.code ≠ 0b11#2

/-! ## The step -/

/-- A step whose next call is a request word runs the operation the word decodes to, on the state with the
call taken off the caller's list (R50, R195). -/
def Obligations.StepRunsTheDecodedRequest : Prop :=
  ∀ (s : State) (w : Word) (rest : List Call) (i : Instr), s.calls = .request w :: rest →
    decodeRequest s.m w = .ok i → step s = exec i { s with calls := rest }

/-- A step whose next call is the encoded word of a well-formed operation runs that operation. -/
def Obligations.StepRunsTheEncodedOperation : Prop :=
  ∀ (s : State) (rest : List Call) (i : Instr), s.calls = .request (encodeRequest s.m i) :: rest →
    WellFormed s.m i = true → step s = exec i { s with calls := rest }

/-- A step whose next call is a string-level call returns that call's result or error; an omitted operand
is the host's `cur` and an omitted width is the instance's (R87, R107, D20). -/
def Obligations.StepAnswersStringCalls : Prop :=
  ∀ (s : State) (rest : List Call) (str : Option (List Char)),
    (∀ w : Option Int, s.calls = .encode str w :: rest → ∃ t, step s = .next t ∧
      t.reply = some (match encodeStr (str.getD s.cur) (w.getD s.m) with
        | .ok u => .data u
        | .error e => .error e)) ∧
    (s.calls = .decode str :: rest → ∃ t, step s = .next t ∧
      t.reply = some (match decodeStr (str.getD s.cur) with
        | .ok (u, st, k) => .decoded u st k
        | .error e => .error e)) ∧
    (∀ k : Int, s.calls = .flip str k :: rest → ∃ t, step s = .next t ∧
      t.reply = some (match flipStr (str.getD s.cur) k with
        | .ok u => .data u
        | .error e => .error e))

/-- With no call pending nothing happens (log entry 6, the model's choice), and a step faults exactly when
the next call is a word that cannot be presented on the request port (log entry 7, R85). -/
def Obligations.StepStopsOnlyOnAnUnpresentableWord : Prop :=
  (∀ s : State, s.calls = [] → step s = .next s) ∧
  (∀ (s : State) (f : Fault), step s = .fault f ↔
    f = .requestWidth ∧ ∃ w rest, s.calls = .request w :: rest ∧ w.width ≠ reqWidth s.m) ∧
  (∀ (s : State) (r : Refusal), step s ≠ .refused r)

/-- Every step keeps the invariant: pending requests stay presentable, the ports taken stay legal, `err_o`
never `11` (R75, R79, R131). -/
def Obligations.StepKeepsInvariant : Prop :=
  ∀ s t : State, StateInv s → step s = .next t → StateInv t

/-- The invariant holds before the first call. -/
def Obligations.ResetMeetsInvariant : Prop := StateInv State.reset

/-- R200, R195: every call that can be presented returns a result or an error in one step, and the caller's
next call is then the next one. -/
def Obligations.EveryCallReturns : Prop :=
  ∀ (s : State) (c : Call) (rest : List Call), s.calls = c :: rest → c.presentable s.m = true →
    ∃ t r, step s = .next t ∧ t.reply = some r ∧ t.calls = rest

/-- From a state that meets the invariant every number of steps completes and keeps it; nothing stops. -/
def Obligations.EveryRunCompletes : Prop :=
  ∀ (s : State) (k : Nat), StateInv s → ∃ t, Sys2Proof.core.run k s = .next t ∧ StateInv t

/-- A machine that has made no call holds no result; its data width is the model's choice (log entries 2
and 4; R31 and R190 give the hardware no reset value). -/
def Obligations.ResetHoldsNoResult : Prop :=
  State.reset.m = 8 ∧ State.reset.calls = [] ∧ State.reset.last = none ∧ State.reset.reply = none ∧
  State.reset.ports = none ∧ State.reset.cur = Config.initialCur

/-- R47, R30: a result is a function of the call's own operands and of the instance's width alone: two states
of one width, whatever was called before, get the same reply to a call that names its operands; and a
request gets the same error code and, without an error, the same values on every port. -/
def Obligations.ResultDependsOnOperandsAlone : Prop :=
  (∀ (s s' t t' : State) (c : Call) (rest rest' : List Call), s.width = s'.width →
    s.calls = c :: rest → s'.calls = c :: rest' → namesItsOperands c = true →
    step s = .next t → step s' = .next t' → t.reply = t'.reply) ∧
  (∀ (s s' t t' : State) (i : Instr) (o o' : CorePorts), s.width = s'.width →
    exec i s = .next t → exec i s' = .next t' → t.ports = some o → t'.ports = some o' →
    t.reply = t'.reply ∧ o.err = o'.err ∧ (o.err = 0b00#2 → o = o'))

/-- R6, R24: no step changes the data width of the instance. -/
def Obligations.DataWidthIsFixed : Prop :=
  ∀ s t : State, step s = .next t → t.width = s.width
end

