-- ==== Sys2Proof/Laws/Bits.lean ====
section
/-! SUPPORT. The small lemmas of the bit helpers: `vec`, `toggle`, `xorOver`, `isPow2`, membership in the
position lists. -/

namespace Sys2Proof.Machine

@[simp] theorem getLsbD_vec (n : Nat) (f : Nat → Bool) (i : Nat) :
    (vec n f).getLsbD i = (decide (i < n) && f i) := by
  induction n with
  | zero => simp [vec]
  | succ n ih =>
    simp only [vec, BitVec.getLsbD_cons, ih]
    by_cases h : i = n
    · simp [h]
    · simp only [h, if_false]
      congr 2
      exact propext ⟨fun _ => by omega, fun _ => by omega⟩

/-- The same in the bounded form that simp turns a bit of a vector into. -/
@[simp] theorem getElem_vec (n : Nat) (f : Nat → Bool) (i : Nat) (h : i < n) : (vec n f)[i] = f i := by
  rw [← BitVec.getLsbD_eq_getElem, getLsbD_vec]
  simp [h]

theorem getLsbD_toggle {n : Nat} (v : BitVec n) (p q : Nat) :
    (toggle v p).getLsbD q = (v.getLsbD q ^^ (decide (q < n) && decide (q = p))) := by
  simp only [toggle, BitVec.getLsbD_xor, BitVec.getLsbD_twoPow]
  by_cases h : q = p
  · simp [h]
  · simp [h, Ne.symm h]

@[simp] theorem toggle_toggle {n : Nat} (v : BitVec n) (p : Nat) : toggle (toggle v p) p = v := by
  simp [toggle]

@[simp] theorem xorOver_nil (e : Nat → Bool) : xorOver [] e = false := rfl

@[simp] theorem xorOver_cons (p : Nat) (ps : List Nat) (e : Nat → Bool) :
    xorOver (p :: ps) e = (e p ^^ xorOver ps e) := rfl

theorem xorOver_append (ps qs : List Nat) (e : Nat → Bool) :
    xorOver (ps ++ qs) e = (xorOver ps e ^^ xorOver qs e) := by
  induction ps with
  | nil => simp
  | cons p ps ih => simp [ih]

theorem xorOver_congr (ps : List Nat) (e f : Nat → Bool) (h : ∀ p ∈ ps, e p = f p) :
    xorOver ps e = xorOver ps f := by
  induction ps with
  | nil => rfl
  | cons p ps ih =>
    simp only [xorOver_cons, h p (by simp), ih (fun q hq => h q (by simp [hq]))]

/-- Exclusive-or over a set is linear in the bits (R89). -/
theorem xorOver_xor (ps : List Nat) (e f : Nat → Bool) :
    xorOver ps (fun p => e p ^^ f p) = (xorOver ps e ^^ xorOver ps f) := by
  induction ps with
  | nil => rfl
  | cons p ps ih =>
    simp only [xorOver_cons, ih]
    cases e p <;> cases f p <;> simp

/-- A list without repeats that holds `p`: its exclusive-or splits into the bit at `p` and the rest. -/
theorem xorOver_split (ps : List Nat) (e : Nat → Bool) (p : Nat) (hn : ps.Nodup) (hp : p ∈ ps) :
    xorOver ps e = (e p ^^ xorOver (ps.filter (fun q => q != p)) e) := by
  induction ps with
  | nil => simp at hp
  | cons q ps ih =>
    rw [List.nodup_cons] at hn
    by_cases h : q = p
    · subst h
      have : ps.filter (fun r => r != q) = ps := by
        rw [List.filter_eq_self]
        intro r hr
        simp only [bne_iff_ne, ne_eq]
        rintro rfl
        exact hn.1 hr
      simp [this]
    · have hp' : p ∈ ps := by
        rcases List.mem_cons.1 hp with h' | h'
        · exact absurd h'.symm h
        · exact h'
      have : (q != p) = true := by simp [h]
      simp only [xorOver_cons, List.filter_cons, this, if_true, ih hn.2 hp']
      cases e q <;> cases e p <;> simp

/-- The single one at `p`, summed over a list without repeats: one exactly when the list holds `p`. -/
theorem xorOver_single (ps : List Nat) (p : Nat) (hn : ps.Nodup) :
    xorOver ps (fun q => decide (q = p)) = decide (p ∈ ps) := by
  induction ps with
  | nil => simp
  | cons q ps ih =>
    rw [List.nodup_cons] at hn
    simp only [xorOver_cons, ih hn.2, List.mem_cons]
    by_cases h : q = p
    · subst h
      simp [hn.1]
    · simp [h, Ne.symm h]

theorem isPow2_iff (p : Nat) : isPow2 p = true ↔ ∃ k, p = 2 ^ k := by
  constructor
  · intro h
    exact ⟨Nat.log2 p, by simpa [isPow2] using h⟩
  · rintro ⟨k, rfl⟩
    simp [isPow2]

@[simp] theorem mem_positions (m p : Nat) : p ∈ positions m ↔ 1 ≤ p ∧ p ≤ numPositions m := by
  simp only [positions, List.mem_range'_1]
  omega

theorem positions_nodup (m : Nat) : (positions m).Nodup := List.nodup_range' ..

@[simp] theorem mem_dataPositions (m p : Nat) :
    p ∈ dataPositions m ↔ (1 ≤ p ∧ p ≤ numPositions m) ∧ isPow2 p = false := by
  simp [dataPositions]

@[simp] theorem mem_cover (m i p : Nat) :
    p ∈ cover m i ↔ (1 ≤ p ∧ p ≤ numPositions m) ∧ p.testBit i = true := by
  simp [cover]

theorem cover_nodup (m i : Nat) : (cover m i).Nodup := (positions_nodup m).filter _

/-- A bit number of a codeword is a Hamming position or `0` (R66). -/
theorem lt_codeLen (m p : Nat) : p < codeLen m ↔ p ≤ numPositions m := by
  unfold codeLen
  omega

end Sys2Proof.Machine
end

