-- ==== Sys2Proof/Laws/State.lean ====
section
/-! SUPPORT. One lemma per field per named update of State, so that no proof unfolds a record update. -/

namespace Sys2Proof.Machine

section returnData
variable (t : List Char) (s : State)
@[simp] theorem returnData_width : (returnData t s).width = s.width := rfl
@[simp] theorem returnData_m : (returnData t s).m = s.m := rfl
@[simp] theorem returnData_calls : (returnData t s).calls = s.calls := rfl
@[simp] theorem returnData_cur : (returnData t s).cur = t := rfl
@[simp] theorem returnData_last : (returnData t s).last = s.last := rfl
@[simp] theorem returnData_reply : (returnData t s).reply = some (.data t) := rfl
@[simp] theorem returnData_ports : (returnData t s).ports = s.ports := rfl
@[simp] theorem returnData_freshCount : (returnData t s).freshCount = s.freshCount := rfl
end returnData

section returnDecoded
variable (t : List Char) (st : Status) (idx : Option Nat) (s : State)
@[simp] theorem returnDecoded_width : (returnDecoded t st idx s).width = s.width := rfl
@[simp] theorem returnDecoded_m : (returnDecoded t st idx s).m = s.m := rfl
@[simp] theorem returnDecoded_calls : (returnDecoded t st idx s).calls = s.calls := rfl
@[simp] theorem returnDecoded_cur : (returnDecoded t st idx s).cur = t := rfl
@[simp] theorem returnDecoded_last : (returnDecoded t st idx s).last = some (.decoded st idx) := rfl
@[simp] theorem returnDecoded_reply :
    (returnDecoded t st idx s).reply = some (.decoded t st idx) := rfl
@[simp] theorem returnDecoded_ports : (returnDecoded t st idx s).ports = s.ports := rfl
@[simp] theorem returnDecoded_freshCount :
    (returnDecoded t st idx s).freshCount = s.freshCount := rfl
end returnDecoded

section raise
variable (e : CodecError) (s : State)
@[simp] theorem raise_width : (raise e s).width = s.width := rfl
@[simp] theorem raise_m : (raise e s).m = s.m := rfl
@[simp] theorem raise_calls : (raise e s).calls = s.calls := rfl
@[simp] theorem raise_cur : (raise e s).cur = s.cur := rfl
@[simp] theorem raise_last : (raise e s).last = some (.error e) := rfl
@[simp] theorem raise_reply : (raise e s).reply = some (.error e) := rfl
@[simp] theorem raise_ports : (raise e s).ports = s.ports := rfl
@[simp] theorem raise_freshCount : (raise e s).freshCount = s.freshCount := rfl
end raise

section takePorts
variable (o : CorePorts) (s : State)
@[simp] theorem takePorts_width : (takePorts o s).width = s.width := rfl
@[simp] theorem takePorts_m : (takePorts o s).m = s.m := rfl
@[simp] theorem takePorts_calls : (takePorts o s).calls = s.calls := rfl
@[simp] theorem takePorts_cur : (takePorts o s).cur = s.cur := rfl
@[simp] theorem takePorts_last : (takePorts o s).last = s.last := rfl
@[simp] theorem takePorts_reply : (takePorts o s).reply = s.reply := rfl
@[simp] theorem takePorts_ports : (takePorts o s).ports = some o := rfl
@[simp] theorem takePorts_freshCount : (takePorts o s).freshCount = s.freshCount := rfl
end takePorts

section raiseOnPorts
variable (e : CodecError) (s : State)
@[simp] theorem raiseOnPorts_width : (raiseOnPorts e s).width = s.width := rfl
@[simp] theorem raiseOnPorts_m : (raiseOnPorts e s).m = s.m := rfl
@[simp] theorem raiseOnPorts_calls : (raiseOnPorts e s).calls = s.calls := rfl
@[simp] theorem raiseOnPorts_cur : (raiseOnPorts e s).cur = s.cur := rfl
@[simp] theorem raiseOnPorts_last : (raiseOnPorts e s).last = some (.error e) := rfl
@[simp] theorem raiseOnPorts_reply : (raiseOnPorts e s).reply = some (.error e) := rfl
@[simp] theorem raiseOnPorts_ports :
    (raiseOnPorts e s).ports = some (errorPorts s.m s.freshCount e) := rfl
@[simp] theorem raiseOnPorts_freshCount : (raiseOnPorts e s).freshCount = s.freshCount + 1 := rfl
end raiseOnPorts

section withCalls
variable (cs : List Call) (s : State)
/-- Taking calls off the caller's list changes no other field, the data width among them. -/
@[simp] theorem withCalls_m : ({ s with calls := cs } : State).m = s.m := rfl
end withCalls

@[simp] theorem withFetchWord_calls (s : State) (nbits w : Nat) :
    (s.withFetchWord nbits w).calls = .request (requestOfNat s.m nbits w) :: s.calls := rfl

@[simp] theorem withFetchWord_width (s : State) (nbits w : Nat) :
    (s.withFetchWord nbits w).width = s.width := rfl

@[simp] theorem withFetchWord_cur (s : State) (nbits w : Nat) :
    (s.withFetchWord nbits w).cur = s.cur := rfl

end Sys2Proof.Machine
end

