-- ==== Sys2Proof/Laws/Exec.lean ====
section
/-! SUPPORT. Everything an operation on the wrapper can do, said once: the four results an operation can
have, for the proofs to cite instead of unfolding the meanings; the string-level calls; the request. -/

namespace Sys2Proof.Machine

/-- A `FLIP` request whose index is in range. -/
theorem execFlip_inRange (idx a : Word) (s : State) (h : (indexOperand s.m idx).toNat < codeLen s.m) :
    execFlip idx a s =
      .next (takePorts
        (dataPorts s.m (toggle (codewordOperand s.m a) (vecIndex (codeLen s.m) (indexOperand s.m idx).toNat)))
        (returnData
          (bitsStr (toggle (codewordOperand s.m a) (vecIndex (codeLen s.m) (indexOperand s.m idx).toNat)))
          s)) := by
  unfold execFlip flipVec
  rw [if_pos ⟨by omega, by exact_mod_cast h⟩]
  rfl

/-- A `FLIP` request whose index is out of range. -/
theorem execFlip_outOfRange (idx a : Word) (s : State) (h : codeLen s.m ≤ (indexOperand s.m idx).toNat) :
    execFlip idx a s = .next (raiseOnPorts .indexOutOfRange s) := by
  unfold execFlip flipVec
  rw [if_neg (by omega)]

/-- An operation on the wrapper returns data (`ENCODE`, `FLIP`), returns a decoding (`DECODE`), or raises
one of the two errors. -/
theorem exec_cases (i : Instr) (s : State) :
    (i = .encode i.idx i.a ∧
      ∃ y, exec i s = .next (takePorts (dataPorts s.m y) (returnData (bitsStr y) s))) ∨
    (i = .decode i.idx i.a ∧
      exec i s = .next (takePorts (secdedDec s.m (codewordOperand s.m i.a)).onWrapper
        (returnDecoded (bitsStr (decodeVec s.m (codewordOperand s.m i.a)).y)
          (decodeVec s.m (codewordOperand s.m i.a)).status
          (decodeVec s.m (codewordOperand s.m i.a)).idx s))) ∨
    (i = .flip i.idx i.a ∧ (indexOperand s.m i.idx).toNat < codeLen s.m ∧
      ∃ y, exec i s = .next (takePorts (dataPorts s.m y) (returnData (bitsStr y) s))) ∨
    (i = .flip i.idx i.a ∧ codeLen s.m ≤ (indexOperand s.m i.idx).toNat ∧
      exec i s = .next (raiseOnPorts .indexOutOfRange s)) ∨
    (i = .reserved i.idx i.a ∧ exec i s = .next (raiseOnPorts .invalidInput s)) := by
  cases i with
  | encode idx a => exact .inl ⟨rfl, _, rfl⟩
  | decode idx a => exact .inr (.inl ⟨rfl, rfl⟩)
  | flip idx a =>
    by_cases h : (indexOperand s.m idx).toNat < codeLen s.m
    · exact .inr (.inr (.inl ⟨rfl, h, _, execFlip_inRange idx a s h⟩))
    · have h' : codeLen s.m ≤ (indexOperand s.m idx).toNat := by omega
      exact .inr (.inr (.inr (.inl ⟨rfl, h', execFlip_outOfRange idx a s h'⟩)))
  | reserved idx a => exact .inr (.inr (.inr (.inr ⟨rfl, rfl⟩)))

/-- A string-level `encode` call returns data or raises an error. -/
theorem callEncode_cases (t : Option (List Char)) (m : Option Int) (s : State) :
    (∃ u, callEncode t m s = returnData u s) ∨ (∃ e, callEncode t m s = raise e s) := by
  unfold callEncode
  split
  · exact .inl ⟨_, rfl⟩
  · exact .inr ⟨_, rfl⟩

/-- A string-level `decode` call returns a decoding or raises an error. -/
theorem callDecode_cases (t : Option (List Char)) (s : State) :
    (∃ u st k, callDecode t s = returnDecoded u st k s) ∨ (∃ e, callDecode t s = raise e s) := by
  unfold callDecode
  split
  · exact .inl ⟨_, _, _, rfl⟩
  · exact .inr ⟨_, rfl⟩

/-- A string-level `flip_bit` call returns data or raises an error. -/
theorem callFlip_cases (t : Option (List Char)) (k : Int) (s : State) :
    (∃ u, callFlip t k s = returnData u s) ∨ (∃ e, callFlip t k s = raise e s) := by
  unfold callFlip
  split
  · exact .inl ⟨_, rfl⟩
  · exact .inr ⟨_, rfl⟩

/-- A step whose next call is a request word performs the request on the state without that call. -/
theorem step_request (s : State) (w : Word) (rest : List Call) (h : s.calls = .request w :: rest) :
    step s = runRequest w { s with calls := rest } := by
  unfold step
  rw [h]

/-- A request word of another width than the port's cannot be presented. -/
theorem runRequest_wrongWidth (w : Word) (s : State) (h : w.width ≠ reqWidth s.m) :
    runRequest w s = .fault .requestWidth := by
  unfold runRequest decodeRequest
  rw [if_neg h]

/-- A request word of the port's width runs the operation its fields select. -/
theorem runRequest_width (w : Word) (s : State) (h : w.width = reqWidth s.m) :
    runRequest w s =
      exec (selectOp (reqOp s.m w) (Word.of (reqIdx s.m w)) (Word.of (reqA s.m w))) s := by
  unfold runRequest decodeRequest
  rw [if_pos h]

/-- A run of one step more goes on from where the first step leads. -/
theorem run_next (M : Host.Core) (k : Nat) (s t : M.State) (h : M.step s = .next t) :
    M.run (k + 1) s = M.run k t := by
  simp [Host.Core.run, h]

end Sys2Proof.Machine
end

