-- ==== Sys2Proof/Laws/Request.lean ====
section
/-! SUPPORT. The bits of a packed request word and its operation code field (R79). -/

namespace Sys2Proof

open Sys2Proof.Machine

/-- The bits of a packed request: `a` lowest, then `idx`, then `op` (R79). -/
theorem getLsbD_packRequest (m : Nat) (op : BitVec 2) (idx : BitVec (idxWidth m))
    (a : BitVec (codeLen m)) (i : Nat) :
    (packRequest m op idx a).getLsbD i =
      if i < codeLen m then a.getLsbD i
      else if i < codeLen m + idxWidth m then idx.getLsbD (i - codeLen m)
      else op.getLsbD (i - codeLen m - idxWidth m) := by
  have h : (packRequest m op idx a).getLsbD i = (op ++ idx ++ a).getLsbD i := rfl
  rw [h, BitVec.getLsbD_append, BitVec.getLsbD_append]
  by_cases h1 : i < codeLen m
  · simp [h1]
  · by_cases h2 : i < codeLen m + idxWidth m
    · have : i - codeLen m < idxWidth m := by omega
      simp [h1, h2, this]
    · have : ¬ i - codeLen m < idxWidth m := by omega
      simp [h1, h2, this]

/-- The topmost field of a packed request is the operation code. -/
theorem reqOp_pack (m : Nat) (op : BitVec 2) (idx : BitVec (idxWidth m)) (a : BitVec (codeLen m)) :
    reqOp m (Word.of (packRequest m op idx a)) = op := by
  change (packRequest m op idx a).extractLsb' (idxWidth m + codeLen m) 2 = op
  apply BitVec.eq_of_getLsbD_eq
  intro i hi
  rw [BitVec.getLsbD_extractLsb', getLsbD_packRequest, if_neg (by omega), if_neg (by omega)]
  have h : idxWidth m + codeLen m + i - codeLen m - idxWidth m = i := by omega
  simp [h, hi]

end Sys2Proof
end

