-- ==== Sys2Proof/Laws/PerInstr.lean ====
section
/-! SUPPORT. Statements about every operation as syntax, one lemma per constructor. -/

namespace Sys2Proof.Laws.OpField

open Sys2Proof.Machine

/-- The operation code field of an encoded operation is the one table 30-6 gives it (R79, R82). -/
def Statement (i : Instr) : Prop := ∀ m, reqOp m (encodeRequest m i) = i.op

theorem encode (idx a : Word) : Statement (.encode idx a) := fun m => reqOp_pack m _ _ _

theorem decode (idx a : Word) : Statement (.decode idx a) := fun m => reqOp_pack m _ _ _

theorem flip (idx a : Word) : Statement (.flip idx a) := fun m => reqOp_pack m _ _ _

theorem reserved (idx a : Word) : Statement (.reserved idx a) := fun m => reqOp_pack m _ _ _

end Sys2Proof.Laws.OpField
end

