-- ==== Sys2Proof/Tests/Slice0.lean ====
section
/-! SUPPORT. The model's own tests: the well-formedness checks, the words of the spec, one or two vectors per
operation from 95_test_vectors.md, and a witness for the hypotheses of every statement that has some. -/

namespace Sys2Proof.Tests

open Sys2Proof Sys2Proof.Machine Sys2Proof.Spec

set_option maxRecDepth 8192

/-! ## Helpers -/

/-- A small state of the instance `M = 8` with the given pending calls. -/
def demo (calls : List Call) : State where
  width      := ⟨8, by decide⟩
  calls      := calls
  cur        := []
  last       := none
  reply      := none
  ports      := none
  freshCount := 0

/-- The state an outcome leads to, if any. -/
def nextOf : Host.Outcome State Fault Refusal → Option State
  | .next t => some t
  | .fault _ => none
  | .refused _ => none

/-- The reply a step leaves. -/
def replyOf (o : Host.Outcome State Fault Refusal) : Option Reply := (nextOf o).bind State.reply

/-- The output ports a step leaves. -/
def portsOf (o : Host.Outcome State Fault Refusal) : Option CorePorts := (nextOf o).bind State.ports

/-- `cur` after a step. -/
def curOf (o : Host.Outcome State Fault Refusal) : Option (List Char) := (nextOf o).map State.cur

/-! ## Well-formedness: each check refuses an ill-formed term -/

theorem test_wellFormed_accepts : WellFormed 8 (.flip (Word.of 4#4) (Word.of 0#13)) = true := by decide

theorem test_wellFormed_refuses_index_width : WellFormed 8 (.flip (Word.of 4#5) (Word.of 0#13)) = false := by
  decide

theorem test_wellFormed_refuses_data_width : WellFormed 8 (.flip (Word.of 4#4) (Word.of 0#12)) = false := by
  decide

/-! ## Decoding: words written out from R79 and R82 (95_test_vectors.md section 5) -/

theorem test_decode_encode : decodeRequest 8 (Word.of 0b00_0000_0000010110010#19) =
    .ok (.encode (Word.of 0b0000#4) (Word.of 0b0000010110010#13)) := by rfl

theorem test_decode_decode : decodeRequest 8 (Word.of 0b01_0000_0100111001010#19) =
    .ok (.decode (Word.of 0b0000#4) (Word.of 0b0100111001010#13)) := by rfl

theorem test_decode_flip : decodeRequest 8 (Word.of 0b10_1101_1001000111001#19) =
    .ok (.flip (Word.of 0b1101#4) (Word.of 0b1001000111001#13)) := by rfl

theorem test_decode_reserved : decodeRequest 8 (Word.of 0b11_0101_0000000000011#19) =
    .ok (.reserved (Word.of 0b0101#4) (Word.of 0b0000000000011#13)) := by rfl

theorem test_decode_rejects_width : decodeRequest 8 (Word.of 0#20) = .error .requestWidth := by rfl

/-- Program 2 line 2, in hexadecimal. -/
theorem test_table_word_flip :
    decodeTableWord 24 0x489CA = some (.flip (Word.of 4#4) (Word.of 0b0100111001010#13)) := by decide

/-- The reserved row's match. -/
theorem test_table_word_reserved :
    decodeTableWord 24 0x60000 = some (.reserved (Word.of 0#4) (Word.of 0#13)) := by decide

/-- A number of twenty bits is no request of the instance `M = 8`. -/
theorem test_table_word_too_wide : decodeTableWord 24 0x80000 = none := by decide

/-- The assembler's words: program 5 line 2 and program 1 line 1. -/
theorem test_asm_flip :
    asmFlip 16 0b0101001010101001001110#22 0b00101#5 = Word.of 0x1154AA4E#29 := by decide

theorem test_asm_encode : asmEncode 8 0b10110010#8 = Word.of 0x000B2#19 := by decide

/-! ## Positions and sizes (table 30-2, section 2) -/

theorem test_dpos_16 : (List.range 16).map (dpos 16) =
    [3, 5, 6, 7, 9, 10, 11, 12, 13, 14, 15, 17, 18, 19, 20, 21] := by decide

theorem test_lenParams_66 : lenParams 66 = some (58, 7) := by decide

theorem test_lenParams_33 : lenParams 33 = none := by decide

/-! ## The operations on the wrapper -/

/-- V-ENC-3: unread fields nonzero on purpose. -/
theorem test_exec_encode :
    ((portsOf (exec (.encode (Word.of 9#4) (Word.of 0b1010110110010#13)) (demo []))).map CorePorts.y) =
      some (Word.of 0b0100111001010#13) := by decide

theorem test_exec_encode_cur :
    curOf (exec (.encode (Word.of 0#4) (Word.of 0b0000011111111#13)) (demo [])) =
      some "1111011101110".toList := by decide

/-- V-PORT-1, V-DEC-1 row `idx` 4: every port. -/
theorem test_exec_decode_corrects :
    portsOf (exec (.decode (Word.of 0#4) (Word.of 0b0100011001010#13)) (demo [])) =
      some ⟨Word.of 0b0100111001010#13, 0b01#2, true, Word.of 0b1000#4, Word.of 0b0100#4,
        Word.of 0b1000#4, true, 0b00#2⟩ := by decide

/-- V-DEC-3 row 2: a syndrome above `N`. -/
theorem test_exec_decode_above :
    portsOf (exec (.decode (Word.of 0#4) (Word.of 0b0100011011000#13)) (demo [])) =
      some ⟨Word.of 0b0100011011000#13, 0b11#2, false, Word.of 0#4, Word.of 0#4, Word.of 13#4, true,
        0b00#2⟩ := by decide

/-- V-FLIP-1: the overall parity bit is string index 12. -/
theorem test_exec_flip_last :
    curOf (exec (.flip (Word.of 12#4) (Word.of 0b0100111001010#13)) (demo [])) =
      some "0100111001011".toList := by decide

/-- V-FLIP-2: index 13 on the `M = 8` port. -/
theorem test_exec_flip_out_of_range :
    replyOf (exec (.flip (Word.of 13#4) (Word.of 0b0100111001010#13)) (demo [])) =
      some (.error .indexOutOfRange) := by decide

theorem test_exec_reserved :
    (portsOf (exec (.reserved (Word.of 0#4) (Word.of 0#13)) (demo []))).map CorePorts.err =
      some 0b01#2 := by decide

/-- The reserved request of 95_test_vectors.md section 5, placed by withFetchWord. -/
theorem test_step_fetches_reserved :
    replyOf (step ((demo []).withFetchWord 24 0x60000)) = some (.error .invalidInput) := by decide

/-! ## The string level -/

/-- V-ENC-7. -/
theorem test_encodeStr_32 :
    encodeStr "11011110101011011011111011101111".toList 32 =
      .ok "111101111011111011011011010111010101011".toList := by decide

/-- V-ERR-1, the source's own example. -/
theorem test_encodeStr_nonbinary : encodeStr "0102".toList 4 = .error .invalidInput := by decide

/-- V-DEC-6, position 32. -/
theorem test_decodeStr_32 :
    decodeStr "000011111000011110000111110000111101000".toList =
      .ok ("000011011000011110000111110000111101000".toList, .singleBitCorrected, some 6) := by decide

/-- V-DEC-4, `M = 1`. -/
theorem test_decodeStr_1 : decodeStr "0110".toList = .ok ("0110".toList, .unresolvable, none) := by decide

/-- V-ERR-1: the operand is examined before the index. -/
theorem test_flipStr_priority : flipStr "01x".toList 9 = .error .invalidInput := by decide

/-- V-FLIP-2: negative indices do not count from the end. -/
theorem test_flipStr_negative : flipStr "0100111001010".toList (-1) = .error .indexOutOfRange := by decide

/-- Program 4 line 3: an omitted operand is `cur`, and the result replaces it. -/
theorem test_step_flip_cur :
    curOf (step { demo [.flip none 1] with cur := "1101000111001".toList }) =
      some "1001000111001".toList := by decide

/-- Program 4 line 5: an error stores nothing. -/
theorem test_step_error_keeps_cur :
    curOf (step { demo [.flip none 13] with cur := "1001000111001".toList }) =
      some "1001000111001".toList := by decide

/-! ## Witnesses: the hypotheses of the statements can be met -/

theorem witness_ParityWidthIsLeast :
    8 + 4 + 1 ≤ 2 ^ 4 ∧ 1 ≤ 4 ∧ (2 ≤ 2 ∧ 2 ≤ 4) ∧ (5 ≤ 11 ∧ 11 ≤ 11) ∧ (12 ≤ 26 ∧ 26 ≤ 26) ∧
      (27 ≤ 57 ∧ 57 ≤ 57) ∧ (58 ≤ 120 ∧ 120 ≤ 120) ∧ (121 ≤ 247 ∧ 247 ≤ 247) := by decide

theorem witness_DerivedSizesAreBounded : 1 ≤ 1 ∧ 1 < rpar 1 := by decide

theorem witness_CodewordLengthGivesWidths :
    lenParams 4 = some (1, 2) ∧ (1 ≤ 12 - 4 ∧ rpar (12 - 4) = 4) ∧ 40 ≤ 40 := by decide

theorem witness_DataPositionsAreNumberedInOrder :
    1 ≤ 8 ∧ 7 < 8 ∧ 0 < 7 ∧ (1 ≤ 12 ∧ 12 ≤ numPositions 8 ∧ isPow2 12 = false) ∧ 7 < 16 ∧ 5 ≤ 5 := by
  decide

theorem witness_CoverSetsAreTheIndexBits :
    1 ≤ 8 ∧ 3 < rpar 8 ∧ 12 ∈ cover 8 3 ∧ 12 ≠ 2 ^ 3 := by decide

/-- The last index in range, string index `N = 12`, and the first out of range. -/
theorem witness_FlipRequestInvertsOneBit :
    ((Word.of 12#4).read (idxWidth (demo []).m)).toNat < codeLen (demo []).m ∧
      codeLen (demo []).m ≤ ((Word.of 13#4).read (idxWidth (demo []).m)).toNat ∧
      0 < 1 ∧ ¬ ((0 : Int) ≤ 0 ∧ (0 : Int) < ((0 : Nat) : Int)) := by decide

/-- The first index out of range, `L = 13`; and both ends of the integer range. -/
theorem witness_FlipIndexOutOfRangeFails :
    codeLen (demo []).m ≤ ((Word.of 13#4).read (idxWidth (demo []).m)).toNat ∧
      ((-1 : Int) < 0 ∨ ((13 : Nat) : Int) ≤ -1) ∧ ((13 : Int) < 0 ∨ ((13 : Nat) : Int) ≤ 13) ∧
      ((0 : Int) ≤ 12 ∧ (12 : Int) < ((13 : Nat) : Int)) := by decide

theorem witness_InjectorUnitPorts :
    (12#4 : BitVec (bitlen 13)).toNat < 13 ∧ 13 ≤ (13#4 : BitVec (bitlen 13)).toNat := by decide

theorem witness_ReservedRequestAnswersInvalidInput :
    (Word.of 0x60000#19).width = reqWidth 8 ∧
      (Word.of 0x60000#19).bits.getLsbD (idxWidth 8 + codeLen 8) = true ∧
      (Word.of 0x60000#19).bits.getLsbD (idxWidth 8 + codeLen 8 + 1) = true := by decide

theorem witness_UnreadFieldsAndUnproducedOutputs :
    (((Word.of 0b1111110110010#13).read (codeLen (demo []).m)).setWidth (demo []).m =
      ((Word.of 0b0000010110010#13).read (codeLen (demo []).m)).setWidth (demo []).m) ∧
    (∃ t o, exec (.encode (Word.of 0#4) (Word.of 0#13)) (demo []) = .next t ∧ t.ports = some o ∧
      o.err = 0b00#2) ∧
    (∃ t o, exec (.flip (Word.of 12#4) (Word.of 0#13)) (demo []) = .next t ∧ t.ports = some o ∧
      o.err = 0b00#2) :=
  ⟨by decide, ⟨_, _, rfl, rfl, rfl⟩, ⟨_, _, rfl, rfl, rfl⟩⟩

theorem witness_ErrorsAreThoseOfTheTable :
    ∃ t o, exec (.decode (Word.of 0#4) (Word.of 0#13)) (demo []) = .next t ∧ t.ports = some o :=
  ⟨_, _, rfl, rfl⟩

/-- One witness for each kind of reply. -/
theorem witness_HostStateAfterRequest :
    (∃ t, exec (.flip (Word.of 0#4) (Word.of 0#13)) (demo []) = .next t ∧
      t.reply = some (.data "1000000000000".toList)) ∧
    (∃ t, exec (.decode (Word.of 0#4) (Word.of 0#13)) (demo []) = .next t ∧
      t.reply = some (.decoded "0000000000000".toList .noError none)) ∧
    (∃ t, exec (.reserved (Word.of 0#4) (Word.of 0#13)) (demo []) = .next t ∧
      t.reply = some (.error .invalidInput)) :=
  ⟨⟨_, rfl, by decide⟩, ⟨_, rfl, by decide⟩, ⟨_, rfl, by decide⟩⟩

theorem witness_SuccessfulRequestFrame :
    ∃ t o, exec (.flip (Word.of 12#4) (Word.of 0#13)) (demo []) = .next t ∧ t.ports = some o ∧
      o.err = 0b00#2 :=
  ⟨_, _, rfl, rfl, rfl⟩

theorem witness_FailedRequestFrame :
    ∃ t o, exec (.flip (Word.of 13#4) (Word.of 0#13)) (demo []) = .next t ∧ t.ports = some o ∧
      o.err ≠ 0b00#2 :=
  ⟨_, _, rfl, rfl, by decide⟩

/-- One witness for each kind of reply. -/
theorem witness_StringCallFrame :
    (∃ t, step (demo [.flip (some []) 0]) = .next t ∧ t.reply = some (.error .indexOutOfRange)) ∧
    (∃ t, step (demo [.flip (some ['1']) 0]) = .next t ∧ t.reply = some (.data ['0'])) ∧
    (∃ t, step (demo [.decode (some ['0', '0', '0', '0'])]) = .next t ∧
      t.reply = some (.decoded ['0', '0', '0', '0'] .noError none)) :=
  ⟨⟨_, rfl, by decide⟩, ⟨_, rfl, by decide⟩, ⟨_, rfl, by decide⟩⟩

/-- The smallest width, with a data bit and a parity index at their last values. -/
theorem witness_EncoderLaws :
    1 ≤ 1 ∧ 0 < 1 ∧ 1 < rpar 1 ∧ (encodeVec 1 1#1).toNat = (encodeVec 1 1#1).toNat := by decide

theorem witness_SyndromeNamesTheErrorVector : 1 ≤ 8 := by decide

/-- The last numbered index, the overall index, and two distinct indices at the ends. -/
theorem witness_DecodingAfterFlips :
    1 ≤ 8 ∧ 11 + 1 ≤ numPositions 8 ∧ 0 < codeLen 8 ∧ 12 < codeLen 8 ∧ 0 ≠ 12 := by decide

/-- V-DEC-3: three flips (positions 1, 2 and the overall bit) that miscorrect; two flips; one flip. -/
theorem witness_HeavyErrorsAreClassifiedByWeight :
    weight (7#13) = 3 ∧ weight (3#13) % 2 = 0 ∧ weight (1#13) % 2 = 1 ∧
      (decodeVec 8 (encodeVec 8 0b10110010#8 ^^^ (7 : BitVec (codeLen 8)))).status = .singleBitCorrected := by decide

theorem witness_DecodingIsIdempotent :
    (decodeVec 8 0b0000000000010#13).status = .singleBitCorrected ∧
    (decodeVec 8 0b0000000001111#13).status = .noError ∧
    (decodeVec 8 0b0000000000001#13).status = .doubleErrorDetected ∧
    (decodeVec 8 0b1010101010101#13).status = .unresolvable := by decide

/-- V-DEC-3 row 2: positions 1, 4 and 8 flipped name position 13, above `N = 12`. -/
theorem witness_SyndromeAboveTheLastPosition :
    numPositions 8 < syndrome 8 (encodeVec 8 0b10110010#8 ^^^ (0b0000100010010 : BitVec (codeLen 8))) ∧
    parityMismatch 8 (encodeVec 8 0b10110010#8 ^^^ (0b0000100010010 : BitVec (codeLen 8))) = true ∧
    numPositions 4 = 2 ^ rpar 4 - 1 := by decide

theorem witness_FlipLaws : 0 < 1 ∧ 12 < 13 := by decide

theorem witness_StringsAndVectorsAreInverse :
    isBinary ['0', '1', '0'] = true ∧ 2 < ['0', '1', '0'].length := by decide

theorem witness_StringEncode :
    (1 ≤ 1 ∧ ['1'].length = 1 ∧ 0 < 1) ∧ (∀ c ∈ ['1'], c = '0' ∨ c = '1') ∧
      encodeStr [] 0 = .error .invalidInput ∧
      (demo [.encode (some ['1']) none]).calls = .encode (some ['1']) none :: [] :=
  ⟨by decide, by simp, by decide, rfl⟩

theorem witness_StringDecode :
    (1 ≤ 1 ∧ ['0', '0', '0', '1'].length = codeLen 1) ∧ (∀ c ∈ ['0', '0', '0', '1'], c = '0' ∨ c = '1') ∧
      decodeStr ['0', '0', '0', '0'] = .ok (['0', '0', '0', '0'], .noError, none) :=
  ⟨by decide, by simp, by decide⟩

theorem witness_StringFlip :
    (∃ c ∈ ['0', '1', 'x'], c ≠ '0' ∧ c ≠ '1') ∧ (∀ c ∈ ['1', '0'], c = '0' ∨ c = '1') ∧
      ((2 : Int) < 0 ∨ (['1', '0'].length : Int) ≤ 2) ∧ 1 < ['1', '0'].length :=
  ⟨⟨'x', by simp, by decide⟩, by simp, by decide, by decide⟩

theorem witness_ErrorPriority :
    (isBinary ['0', '1', 'x'] = false ∧ ((9 : Int) < 0 ∨ (['0', '1', 'x'].length : Int) ≤ 9)) ∧
      codeLen (demo []).m ≤ ((Word.of 15#4).read (idxWidth (demo []).m)).toNat ∧
      ∃ t, exec (.reserved (Word.of 15#4) (Word.of 0#13)) (demo []) = .next t :=
  ⟨by decide, by decide, _, rfl⟩

theorem witness_StringRoundTrips :
    encodeStr "10110010".toList (8 : Nat) = .ok "0100111001010".toList ∧ 11 + 1 ≤ numPositions 8 ∧
      0 < "0100111001010".toList.length ∧ 12 < "0100111001010".toList.length := by decide

theorem witness_BothLevelsAgree :
    isBinary "10110010".toList = true ∧ "10110010".toList.length = (demo []).m ∧
      isBinary "0100111001010".toList = true ∧ "0100111001010".toList.length = codeLen (demo []).m := by
  decide

theorem witness_DecodeOfEncodeIsTheOperation :
    WellFormed 8 (.encode (Word.of 15#4) (Word.of 0x1FFF#13)) = true := by decide

theorem witness_EncodeOfDecodeIsTheWord :
    decodeRequest 8 (Word.of 0x7FFFF#19) = .ok (.reserved (Word.of 15#4) (Word.of 0x1FFF#13)) := by rfl

theorem witness_StepRunsTheDecodedRequest :
    (demo [.request (Word.of 0x489CA#19)]).calls = .request (Word.of 0x489CA#19) :: [] ∧
      decodeRequest 8 (Word.of 0x489CA#19) = .ok (.flip (Word.of 4#4) (Word.of 0b0100111001010#13)) :=
  ⟨rfl, rfl⟩

theorem witness_StepRunsTheEncodedOperation :
    WellFormed (demo []).m (.decode (Word.of 0#4) (Word.of 1#13)) = true ∧
      (demo [.request (encodeRequest 8 (.decode (Word.of 0#4) (Word.of 1#13)))]).calls =
        [.request (encodeRequest (demo []).m (.decode (Word.of 0#4) (Word.of 1#13)))] := by decide

/-- One witness for each of the three calls, operand given and omitted, error and result. -/
theorem witness_StepAnswersStringCalls :
    replyOf (step (demo [.encode (some ['1']) (some 1)])) = some (.data ['1', '1', '1', '1']) ∧
    replyOf (step (demo [.encode none none])) = some (.error .invalidInput) ∧
    replyOf (step { demo [.decode none] with cur := ['0', '0', '0', '1'] }) =
      some (.decoded ['0', '0', '0', '1'] .doubleErrorDetected none) ∧
    replyOf (step (demo [.flip (some ['0']) 0])) = some (.data ['1']) := by decide

theorem witness_StepStopsOnlyOnAnUnpresentableWord :
    (demo []).calls = [] ∧ (Word.of 0#20).width ≠ reqWidth (demo []).m := by decide

theorem witness_StepKeepsInvariant :
    StateInv (demo [.request (Word.of 0x60000#19)]) ∧
      ∃ t, step (demo [.request (Word.of 0x60000#19)]) = .next t := by
  refine ⟨⟨?_, ?_⟩, _, rfl⟩
  · intro c hc
    simp only [demo, List.mem_singleton] at hc
    subst hc
    decide
  · intro o ho
    cases ho

theorem witness_EveryCallReturns :
    (demo [.flip none 0]).calls = .flip none 0 :: [] ∧
      (Call.request (Word.of 0x7FFFF#19)).presentable (demo []).m = true := by decide

theorem witness_EveryRunCompletes : StateInv (demo []) :=
  ⟨fun _ h => (by cases h), fun _ h => (by cases h)⟩

/-- A string-level call and a request, on two states of one width with different histories. -/
theorem witness_ResultDependsOnOperandsAlone :
    ((demo []).width = (demo [.decode none]).width ∧ namesItsOperands (.flip (some ['0']) 0) = true ∧
      ∃ t t', step (demo [.flip (some ['0']) 0]) = .next t ∧
        step { demo [.flip (some ['0']) 0, .decode none] with cur := ['1'] } = .next t') ∧
    ∃ t t' o o', exec (.encode (Word.of 0#4) (Word.of 1#13)) (demo []) = .next t ∧
      exec (.encode (Word.of 0#4) (Word.of 1#13)) (demo [.decode none]) = .next t' ∧
      t.ports = some o ∧ t'.ports = some o' ∧ o.err = 0b00#2 :=
  ⟨⟨rfl, rfl, _, _, rfl, rfl⟩, _, _, _, _, rfl, rfl, rfl, rfl, rfl⟩

theorem witness_DataWidthIsFixed : ∃ t, step (demo [.decode none]) = .next t := ⟨_, rfl⟩

end Sys2Proof.Tests
end

/-! The derived sizes of an instance (R7, R79). -/

namespace Sys2Proof.Machine

/-- Every size of an instance is fixed by its data width and its parity width (R7, R79). -/
theorem sizes_of_rpar {m r : Nat} (h : rpar m = r) :
    numPositions m = m + r ∧ codeLen m = m + r + 1 ∧ idxWidth m = bitlen (m + r + 1) ∧
      reqWidth m = 2 + bitlen (m + r + 1) + (m + r + 1) := by
  subst h
  exact ⟨rfl, rfl, rfl, rfl⟩

/-- The parity widths of table 00-1, found by the search of R60. -/
theorem rpar_reference : rpar 8 = 4 ∧ rpar 16 = 5 ∧ rpar 32 = 6 := by decide

/-- Settles O37: each row of table 00-1 is the parity width the search finds, with the sizes it fixes. -/
theorem referenceSizes : Obligations.ReferenceSizes := by
  obtain ⟨h8, h16, h32⟩ := rpar_reference
  refine ⟨fun m => ?_, ⟨h8, sizes_of_rpar h8⟩, ⟨h16, sizes_of_rpar h16⟩, ⟨h32, sizes_of_rpar h32⟩⟩
  exact sizes_of_rpar rfl

end Sys2Proof.Machine

/-! The answer to a call as a function of its operands and of the data width alone (R47, R30). The model's
operations take a state; the lemmas below tie what they leave in `reply` and `ports` to that function. -/

namespace Sys2Proof.Machine

/-- What the wrapper answers to an operation: an error, or a value for every output port and a reply. -/
inductive WrapperAnswer where
  | error (e : CodecError)
  | result (o : CorePorts) (r : Reply)

/-- The answer of an operation that produces only `y_o` (R84). -/
def WrapperAnswer.data (m : Nat) (y : BitVec (codeLen m)) : WrapperAnswer :=
  .result (dataPorts m y) (.data (bitsStr y))

/-- What the caller gets back (R169). -/
def WrapperAnswer.reply : WrapperAnswer → Reply
  | .error e => .error e
  | .result _ r => r

/-- The output ports; `c` selects the free values that stand there beside an error (R172). -/
def WrapperAnswer.ports (m c : Nat) : WrapperAnswer → CorePorts
  | .error e => errorPorts m c e
  | .result o _ => o

/-- The answer to an operation at data width `m` (R82, R83, R84). -/
def wrapperAnswer (m : Nat) : Instr → WrapperAnswer
  | .encode _ a => .data m (secdedEnc m (messageOperand m a))
  | .decode _ a =>
    let r := decodeVec m (codewordOperand m a)
    .result r.onPorts.onWrapper (.decoded (bitsStr r.y) r.status r.idx)
  | .flip idx a =>
    let k := (indexOperand m idx).toNat
    if k < codeLen m then .data m (toggle (codewordOperand m a) (vecIndex (codeLen m) k))
    else .error .indexOutOfRange
  | .reserved _ _ => .error .invalidInput

/-- An operation on the wrapper leaves the answer that its operands and the data width fix. -/
theorem exec_leaves_wrapperAnswer {i : Instr} {s t : State} (h : exec i s = .next t) :
    t.reply = some (wrapperAnswer s.m i).reply ∧
      t.ports = some ((wrapperAnswer s.m i).ports s.m s.freshCount) := by
  cases i with
  | encode idx a =>
    cases h
    exact ⟨rfl, rfl⟩
  | decode idx a =>
    cases h
    exact ⟨rfl, rfl⟩
  | flip idx a =>
    by_cases hk : (indexOperand s.m idx).toNat < codeLen s.m
    · cases (execFlip_inRange idx a s hk).symm.trans h
      simp [wrapperAnswer, hk, WrapperAnswer.data, WrapperAnswer.reply, WrapperAnswer.ports]
    · cases (execFlip_outOfRange idx a s (not_lt.1 hk)).symm.trans h
      simp [wrapperAnswer, hk, WrapperAnswer.reply, WrapperAnswer.ports]
  | reserved idx a =>
    cases h
    exact ⟨rfl, rfl⟩

/-- The code of an error is never that of no error (R75). -/
theorem CodecError.code_ne_noErrorCode (e : CodecError) : e.code ≠ noErrorCode := by
  cases e <;> decide

/-- The free values do not reach `err_o` (R172). -/
theorem WrapperAnswer.ports_err (m c c' : Nat) (x : WrapperAnswer) :
    (x.ports m c).err = (x.ports m c').err := by
  cases x <;> rfl

/-- Without an error no port carries a free value. -/
theorem WrapperAnswer.ports_eq_of_noError {m c : Nat} {x : WrapperAnswer}
    (h : (x.ports m c).err = noErrorCode) (c' : Nat) : x.ports m c = x.ports m c' := by
  cases x with
  | error e => exact absurd h e.code_ne_noErrorCode
  | result o r => rfl

/-- The reply of a string-level call whose result is one data string. -/
def dataReply : Except CodecError (List Char) → Reply
  | .ok u => .data u
  | .error e => .error e

/-- The reply of a string-level `decode` call. -/
def decodedReply : Except CodecError (List Char × Status × Option Nat) → Reply
  | .ok (u, st, idx) => .decoded u st idx
  | .error e => .error e

theorem callEncode_reply (t : Option (List Char)) (d : Option Int) (s : State) :
    (callEncode t d s).reply =
      some (dataReply (encodeStr (hostOperand t s) (declaredWidth d s))) := by
  unfold callEncode
  cases encodeStr (hostOperand t s) (declaredWidth d s) <;> rfl

theorem callDecode_reply (t : Option (List Char)) (s : State) :
    (callDecode t s).reply = some (decodedReply (decodeStr (hostOperand t s))) := by
  unfold callDecode
  cases decodeStr (hostOperand t s) <;> rfl

theorem callFlip_reply (t : Option (List Char)) (k : Int) (s : State) :
    (callFlip t k s).reply = some (dataReply (flipStr (hostOperand t s) k)) := by
  unfold callFlip
  cases flipStr (hostOperand t s) k <;> rfl

/-- The reply to a call at data width `m`, with `cur` for an omitted operand; none for a
request word that cannot be presented. -/
def callReply (m : Nat) (cur : List Char) : Call → Option Reply
  | .request w => (decodeRequest m w).toOption.map (fun i => (wrapperAnswer m i).reply)
  | .encode t d => some (dataReply (encodeStr (t.getD cur) (d.getD m)))
  | .decode t => some (decodedReply (decodeStr (t.getD cur)))
  | .flip t k => some (dataReply (flipStr (t.getD cur) k))

/-- A request that does not stop runs the operation its word decodes to. -/
theorem runRequest_next {w : Word} {s t : State} (h : runRequest w s = .next t) :
    ∃ i, decodeRequest s.m w = .ok i ∧ exec i s = .next t := by
  unfold runRequest at h
  split at h
  next i hi => exact ⟨i, hi, h⟩
  next => cases h

/-- A step leaves the reply to its call that the call, the data width and `cur` fix. -/
theorem step_reply {s t : State} {c : Call} {rest : List Call} (hc : s.calls = c :: rest)
    (h : step s = .next t) : t.reply = callReply s.m s.cur c := by
  cases c with
  | request w =>
    rw [step_request s w rest hc] at h
    obtain ⟨i, hi, hexec⟩ := runRequest_next h
    rw [withCalls_m] at hi
    obtain ⟨hreply, -⟩ := exec_leaves_wrapperAnswer hexec
    simpa [callReply, hi, Except.toOption] using hreply
  | encode u d =>
    simp only [step, hc] at h
    cases h
    exact callEncode_reply u d _
  | decode u =>
    simp only [step, hc] at h
    cases h
    exact callDecode_reply u _
  | flip u k =>
    simp only [step, hc] at h
    cases h
    exact callFlip_reply u k _

/-- `cur` does not enter the reply to a call that names its operands (R87). -/
theorem callReply_of_namesItsOperands {c : Call} (h : Spec.namesItsOperands c = true) (m : Nat)
    (cur cur' : List Char) : callReply m cur c = callReply m cur' c := by
  cases c with
  | request w => rfl
  | encode u d =>
    obtain ⟨v, rfl⟩ := Option.isSome_iff_exists.1 h
    rfl
  | decode u =>
    obtain ⟨v, rfl⟩ := Option.isSome_iff_exists.1 h
    rfl
  | flip u k =>
    obtain ⟨v, rfl⟩ := Option.isSome_iff_exists.1 h
    rfl

/-- Settles O48: both the reply to a call and the answer of the wrapper are functions of the operands and
the data width; only the free values beside an error depend on the rest of the state. -/
theorem resultDependsOnOperandsAlone : Obligations.ResultDependsOnOperandsAlone := by
  refine ⟨fun s s' t t' c rest rest' hw hc hc' hnamed h h' => ?_,
    fun s s' t t' i o o' hw h h' ho ho' => ?_⟩
  · have hm : s.m = s'.m := congrArg DataWidth.bits hw
    calc t.reply = callReply s.m s.cur c := step_reply hc h
      _ = callReply s'.m s'.cur c := by rw [hm, callReply_of_namesItsOperands hnamed]
      _ = t'.reply := (step_reply hc' h').symm
  · have hm : s.m = s'.m := congrArg DataWidth.bits hw
    obtain ⟨hreply, hports⟩ := exec_leaves_wrapperAnswer h
    obtain ⟨hreply', hports'⟩ := exec_leaves_wrapperAnswer h'
    rw [← hm] at hreply' hports'
    cases ho.symm.trans hports
    cases ho'.symm.trans hports'
    exact ⟨hreply.trans hreply'.symm, WrapperAnswer.ports_err _ _ _ _,
      fun herr => WrapperAnswer.ports_eq_of_noError herr _⟩

end Sys2Proof.Machine

/-! The numeric codes of the ports (R74, R75). -/

namespace Sys2Proof.Machine

/-- No error is reported with the unused code (R75). -/
theorem CodecError.code_ne_unused (e : CodecError) : e.code ≠ 0b11#2 := by
  cases e <;> decide

/-- Settles O38: each code is the one its table gives, and neither error has the unused code. -/
theorem portCodes : Obligations.PortCodes :=
  ⟨rfl, rfl, rfl, rfl, rfl, rfl, rfl, CodecError.code_ne_unused⟩

end Sys2Proof.Machine

/-! The string boundary (R67 to R71): character `k` of a string of length `n` is bit `vecIndex n k`. -/

namespace Sys2Proof.Machine

theorem vecIndex_lt {n k : Nat} (h : k < n) : vecIndex n k < n := by
  unfold vecIndex
  omega

theorem vecIndex_vecIndex {n k : Nat} (h : k < n) : vecIndex n (vecIndex n k) = k := by
  unfold vecIndex
  omega

@[simp] theorem isBinaryChar_bitChar (b : Bool) : isBinaryChar (bitChar b) = true := by
  cases b <;> decide

@[simp] theorem bitChar_beq_one (b : Bool) : (bitChar b == '1') = b := by
  cases b <;> decide

/-- A binary character is the character of the bit it stands for (R70). -/
theorem bitChar_of_isBinaryChar {c : Char} (h : isBinaryChar c = true) : bitChar (c == '1') = c := by
  simp only [isBinaryChar, Bool.or_eq_true, beq_iff_eq] at h
  rcases h with rfl | rfl <;> decide

/-- Every character of a binary string is binary. -/
theorem isBinaryChar_getElem {s : List Char} (h : isBinary s = true) {k : Nat} (hk : k < s.length) :
    isBinaryChar s[k] = true :=
  List.all_eq_true.1 h _ (List.getElem_mem hk)

@[simp] theorem length_bitsStr {n : Nat} (v : BitVec n) : (bitsStr v).length = n := by
  simp [bitsStr]

@[simp] theorem getElem_bitsStr {n : Nat} (v : BitVec n) (k : Nat) (h : k < (bitsStr v).length) :
    (bitsStr v)[k] = bitChar (v.getLsbD (vecIndex n k)) := by
  simp [bitsStr]

@[simp] theorem isBinary_bitsStr {n : Nat} (v : BitVec n) : isBinary (bitsStr v) = true := by
  simp [isBinary, bitsStr]

/-- The bit of a string's vector at the place of character `k` (R71). -/
theorem getLsbD_bitsVec_vecIndex {s : List Char} {n k : Nat} (hn : s.length = n) (hk : k < s.length) :
    (bitsVec n s).getLsbD (vecIndex n k) = (s[k] == '1') := by
  subst hn
  have hkk : s.length - 1 - vecIndex s.length k = k := vecIndex_vecIndex hk
  simp [bitsVec, vecIndex_lt hk, hkk, hk]

/-- Reading a vector's string gives the vector back (R71). -/
@[simp] theorem bitsVec_bitsStr {n : Nat} (v : BitVec n) : bitsVec n (bitsStr v) = v := by
  apply BitVec.eq_of_getLsbD_eq
  intro b hb
  obtain ⟨k, hk, rfl⟩ : ∃ k, k < n ∧ b = vecIndex n k :=
    ⟨vecIndex n b, vecIndex_lt hb, (vecIndex_vecIndex hb).symm⟩
  rw [getLsbD_bitsVec_vecIndex (length_bitsStr v) (by simpa using hk)]
  simp

/-- Writing a binary string's vector gives the string back (R71). -/
theorem bitsStr_bitsVec {s : List Char} (h : isBinary s = true) : bitsStr (bitsVec s.length s) = s := by
  apply List.ext_getElem (length_bitsStr _)
  intro k _ hk
  calc (bitsStr (bitsVec s.length s))[k]
      = bitChar ((bitsVec s.length s).getLsbD (vecIndex s.length k)) := getElem_bitsStr _ _ _
    _ = bitChar (s[k] == '1') := by rw [getLsbD_bitsVec_vecIndex rfl hk]
    _ = s[k] := bitChar_of_isBinaryChar (isBinaryChar_getElem h hk)

/-- Settles O27: the two conversions undo each other, since both place character `k` at bit
`vecIndex n k`. -/
theorem stringsAndVectorsAreInverse : Obligations.StringsAndVectorsAreInverse := by
  refine ⟨fun n v => ⟨length_bitsStr v, isBinary_bitsStr v, bitsVec_bitsStr v⟩,
    fun s => bitsStr_bitsVec, fun s k _ hk => ?_⟩
  have hbit : (bitsVec s.length s).getLsbD (s.length - 1 - k) = (s[k] == '1') :=
    getLsbD_bitsVec_vecIndex rfl hk
  simp [hbit, hk]

end Sys2Proof.Machine

/-! The fields of a packed request word (R79), and the operation the decoder reads from them. -/

namespace Sys2Proof

open Sys2Proof.Machine

section packRequest
variable (m : Nat) (op : BitVec 2) (idx : BitVec (idxWidth m)) (a : BitVec (codeLen m))

/-- The lowest field of a packed request is the data field. -/
theorem reqA_pack : reqA m (Word.of (packRequest m op idx a)) = a := by
  change (packRequest m op idx a).extractLsb' 0 (codeLen m) = a
  apply BitVec.eq_of_getLsbD_eq
  intro i hi
  simp [getLsbD_packRequest, hi]

/-- The middle field of a packed request is the index field. -/
theorem reqIdx_pack : reqIdx m (Word.of (packRequest m op idx a)) = idx := by
  change (packRequest m op idx a).extractLsb' (codeLen m) (idxWidth m) = idx
  apply BitVec.eq_of_getLsbD_eq
  intro i hi
  simp [getLsbD_packRequest, hi]

/-- The decoder reads back the three fields of a packed request (R79, R82). -/
theorem decodeRequest_pack : decodeRequest m (Word.of (packRequest m op idx a)) =
    .ok (selectOp op (Word.of idx) (Word.of a)) := by
  unfold decodeRequest
  rw [if_pos (Word.of_width _), reqOp_pack, reqIdx_pack, reqA_pack]

end packRequest

/-- The assembler's words decode to their operations, the unread fields zero (R84, R87). -/
theorem decodeRequest_asm (m : Nat) (d : BitVec m) (x : BitVec (codeLen m)) (k : BitVec (idxWidth m)) :
    decodeRequest m (asmEncode m d) =
      .ok (.encode (Word.of (0 : BitVec (idxWidth m))) (Word.of (d.setWidth (codeLen m)))) ∧
    decodeRequest m (asmDecode m x) = .ok (.decode (Word.of (0 : BitVec (idxWidth m))) (Word.of x)) ∧
    decodeRequest m (asmFlip m x k) = .ok (.flip (Word.of k) (Word.of x)) :=
  ⟨decodeRequest_pack .., decodeRequest_pack .., decodeRequest_pack ..⟩

end Sys2Proof

/-! Fields an operation reads and outputs it produces (R84), and the injector unit by its range test
(R78, R152). -/

namespace Sys2Proof.Machine

theorem flipVec_inRange {n k : Nat} (v : BitVec n) (h : k < n) :
    flipVec v k = .ok (toggle v (vecIndex n k)) := by
  unfold flipVec
  rw [if_pos ⟨by omega, by exact_mod_cast h⟩]
  rfl

theorem flipVec_outOfRange {n : Nat} (v : BitVec n) {k : Int} (h : ¬ (0 ≤ k ∧ k < n)) :
    flipVec v k = .error .indexOutOfRange :=
  if_neg h

theorem secdedFlip_inRange {n : Nat} (c : Nat) (v : BitVec n) (k : BitVec (bitlen n)) (h : k.toNat < n) :
    secdedFlip c v k = ⟨toggle v (vecIndex n k.toNat), noErrorCode⟩ := by
  unfold secdedFlip
  rw [flipVec_inRange v h]

theorem secdedFlip_outOfRange {n : Nat} (c : Nat) (v : BitVec n) (k : BitVec (bitlen n))
    (h : n ≤ k.toNat) :
    secdedFlip c v k = ⟨Config.freeBits c .y n, CodecError.indexOutOfRange.code⟩ := by
  unfold secdedFlip
  rw [flipVec_outOfRange v (by omega)]

/-- `ENCODE` reads the message operand alone (R84). -/
theorem execEncode_congr {s : State} {a a' : Word} (h : messageOperand s.m a = messageOperand s.m a')
    (idx idx' : Word) : execEncode idx a s = execEncode idx' a' s := by
  unfold execEncode
  rw [h]

/-- The ports of a failing request do not read as those of a successful one (R75). -/
theorem errorPorts_err_ne_noErrorCode (m c : Nat) (e : CodecError) :
    (errorPorts m c e).err ≠ noErrorCode :=
  e.code_ne_noErrorCode

/-- Without an error, `ENCODE` and `FLIP` leave the ports of an operation that produces only `y_o`
(R84). -/
theorem exec_ports_eq_dataPorts {s t : State} {i : Instr} {o : CorePorts}
    (hi : i = .encode i.idx i.a ∨ i = .flip i.idx i.a) (h : exec i s = .next t)
    (ho : t.ports = some o) (herr : o.err = noErrorCode) : ∃ y, o = dataPorts s.m y := by
  rcases exec_cases i s with ⟨-, y, hx⟩ | ⟨hdec, -⟩ | ⟨-, -, y, hx⟩ | ⟨-, -, hx⟩ | ⟨-, hx⟩
  case inr.inl => rw [hdec] at hi; simp at hi
  all_goals
    cases hx.symm.trans h
    cases ho
  · exact ⟨y, rfl⟩
  · exact ⟨y, rfl⟩
  · exact absurd herr (errorPorts_err_ne_noErrorCode _ _ _)
  · exact absurd herr (errorPorts_err_ne_noErrorCode _ _ _)

/-- A `FLIP` request carries the injector unit's outputs: its `err_o`, and without an error its `bits_o`
on `y_o` (R84). -/
theorem execFlip_carries_secdedFlip (s : State) (idx a : Word) (c : Nat) :
    ∃ t o, execFlip idx a s = .next t ∧ t.ports = some o ∧
      o.err = (secdedFlip c (codewordOperand s.m a) (indexOperand s.m idx)).err ∧
      (o.err = noErrorCode →
        o.y = Word.of (secdedFlip c (codewordOperand s.m a) (indexOperand s.m idx)).bits) := by
  by_cases hk : (indexOperand s.m idx).toNat < codeLen s.m
  · rw [secdedFlip_inRange c _ _ hk]
    exact ⟨_, _, execFlip_inRange idx a s hk, rfl, rfl, fun _ => rfl⟩
  · have hk' : codeLen s.m ≤ (indexOperand s.m idx).toNat := not_lt.1 hk
    rw [secdedFlip_outOfRange c _ _ hk']
    exact ⟨_, _, execFlip_outOfRange idx a s hk', rfl, rfl,
      fun herr => absurd herr (errorPorts_err_ne_noErrorCode _ _ _)⟩

/-- Settles O12: each operation depends on the operands its unit reads, and its ports are that unit's. -/
theorem unreadFieldsAndUnproducedOutputs : Obligations.UnreadFieldsAndUnproducedOutputs := by
  refine ⟨fun s idx idx' a a' h => execEncode_congr h idx idx', fun s idx idx' a => rfl,
    fun s i t o hi h ho herr => ?_, fun s idx a => ⟨_, _, rfl, rfl, rfl, rfl⟩,
    fun s idx a => ⟨_, _, rfl, rfl, rfl, rfl⟩, execFlip_carries_secdedFlip, decodeRequest_asm⟩
  obtain ⟨y, rfl⟩ := exec_ports_eq_dataPorts hi h ho herr
  exact ⟨rfl, rfl, rfl, rfl, rfl, rfl⟩

end Sys2Proof.Machine

/-! The parity width as the least solution of R60, and the bounds it gives the last position (R61). -/

namespace Sys2Proof.Machine

/-- The search of R60 stops at the first solution at or above its start, if its tries reach one. -/
theorem rparFrom_isLeast (m tries r : Nat) (h : m + (r + tries) + 1 ≤ 2 ^ (r + tries)) :
    m + rparFrom m tries r + 1 ≤ 2 ^ rparFrom m tries r ∧
      ∀ i, r ≤ i → i < rparFrom m tries r → 2 ^ i < m + i + 1 := by
  induction tries generalizing r with
  | zero => exact ⟨h, fun i hri hir => absurd hir (not_lt.2 hri)⟩
  | succ tries ih =>
    rw [rparFrom]
    split
    next hlt =>
      rw [show r + (tries + 1) = r + 1 + tries by omega] at h
      obtain ⟨hsol, hleast⟩ := ih (r + 1) h
      refine ⟨hsol, fun i hri hi => ?_⟩
      rcases hri.eq_or_lt with rfl | hri
      · exact hlt
      · exact hleast i hri hi
    next hge => exact ⟨not_lt.1 hge, fun i hri hir => absurd hir (not_lt.2 hri)⟩

theorem rpar_isLeast (m : Nat) :
    m + rpar m + 1 ≤ 2 ^ rpar m ∧ ∀ i < rpar m, 2 ^ i < m + i + 1 := by
  have hreach : m + (0 + (m + 1)) + 1 ≤ 2 ^ (0 + (m + 1)) := by
    have hlt : m < 2 ^ m := Nat.lt_two_pow_self
    rw [Nat.zero_add, Nat.pow_succ]
    omega
  obtain ⟨hsol, hleast⟩ := rparFrom_isLeast m (m + 1) 0 hreach
  exact ⟨hsol, fun i => hleast i (Nat.zero_le i)⟩

/-- Every position fits in `R` bits (R61). -/
theorem numPositions_lt_two_pow (m : Nat) : numPositions m < 2 ^ rpar m :=
  (rpar_isLeast m).1

/-- Every parity position is a numbered position (R61). -/
theorem two_pow_le_numPositions {m i : Nat} (hi : i < rpar m) : 2 ^ i ≤ numPositions m := by
  have hleast : 2 ^ i < m + i + 1 := (rpar_isLeast m).2 i hi
  unfold numPositions
  omega

theorem lt_bitlen (k n : Nat) : k < bitlen n ↔ 2 ^ k ≤ n := by
  unfold bitlen
  split
  next hn => simp [hn]
  next hn => rw [← Nat.le_log2 hn, Nat.lt_succ_iff]

theorem bitlen_le (n k : Nat) : bitlen n ≤ k ↔ n < 2 ^ k := by
  rw [← not_lt, lt_bitlen, not_le]

theorem bitlen_numPositions (m : Nat) : bitlen (numPositions m) = rpar m :=
  le_antisymm ((bitlen_le _ _).2 (numPositions_lt_two_pow m))
    (le_of_forall_lt fun _ hi => (lt_bitlen _ _).2 (two_pow_le_numPositions hi))

end Sys2Proof.Machine

/-! The data positions: how many there are (R63), and that `didx` counts back what `dpos` enumerates
(R64). -/

namespace Sys2Proof.Machine

/-- The powers of two up to `n` are `2 ^ i` for `i` below the bit length of `n`. -/
theorem length_filter_isPow2 (n : Nat) : ((List.range' 1 n).filter isPow2).length = bitlen n := by
  have hperm : ((List.range' 1 n).filter isPow2).Perm ((List.range (bitlen n)).map (2 ^ ·)) := by
    refine (List.perm_ext_iff_of_nodup ((List.nodup_range' ..).filter _)
      (List.nodup_range.map (Nat.pow_right_injective le_rfl))).2 fun p => ?_
    simp only [List.mem_filter, List.mem_range'_1, isPow2_iff, List.mem_map, List.mem_range, lt_bitlen]
    constructor
    · rintro ⟨hp, k, rfl⟩
      exact ⟨k, by omega, rfl⟩
    · rintro ⟨k, hk, rfl⟩
      exact ⟨⟨Nat.one_le_two_pow, by omega⟩, k, rfl⟩
  simpa using hperm.length_eq

/-- Below `n + 1` every number from `1` on is a data position or a power of two. -/
theorem didx_succ_add_bitlen (n : Nat) : didx (n + 1) + bitlen n = n := by
  calc didx (n + 1) + bitlen n
      = ((List.range' 1 n).filter (fun q => !isPow2 q)).length
          + ((List.range' 1 n).filter isPow2).length := by rw [length_filter_isPow2]; rfl
    _ = (List.range' 1 n).length := by rw [add_comm, ← List.length_eq_length_filter_add]
    _ = n := List.length_range'

@[simp] theorem length_dataPositions (m : Nat) : (dataPositions m).length = m := by
  have hsplit : (dataPositions m).length + bitlen (numPositions m) = m + rpar m :=
    didx_succ_add_bitlen (numPositions m)
  rw [bitlen_numPositions] at hsplit
  omega

/-- In an increasing enumeration the place of an entry is the number of entries below it. -/
theorem length_filter_below (q : Nat → Bool) (n j p : Nat)
    (h : ((List.range' 1 n).filter q)[j]? = some p) : ((List.range' 1 (p - 1)).filter q).length = j := by
  induction n with
  | zero => simp at h
  | succ n ih =>
    rw [List.range'_1_concat, List.filter_append, List.getElem?_append] at h
    split at h
    next => exact ih h
    next hj =>
      have hp : p = 1 + n := by simpa using List.mem_of_mem_filter (List.mem_of_getElem? h)
      have hlen := (List.getElem?_eq_some_iff.1 h).1
      have hone : ([1 + n].filter q).length ≤ 1 := List.length_filter_le ..
      rw [hp, Nat.add_sub_cancel_left]
      omega

theorem getElem?_dataPositions {m j : Nat} (hj : j < m) : (dataPositions m)[j]? = some (dpos m j) := by
  simp [dpos, hj]

/-- `dpos` names numbered positions that are no power of two (R63). -/
theorem dpos_mem {m j : Nat} (hj : j < m) : dpos m j ∈ dataPositions m :=
  List.mem_of_getElem? (getElem?_dataPositions hj)

theorem didx_dpos {m j : Nat} (hj : j < m) : didx (dpos m j) = j :=
  length_filter_below _ _ _ _ (getElem?_dataPositions hj)

/-- A parity position is covered by no other parity bit (R65). -/
theorem isPow2_eq_false_of_mem_cover {m i p : Nat} (hp : p ∈ cover m i) (hne : p ≠ 2 ^ i) :
    isPow2 p = false := by
  rw [Bool.eq_false_iff, ne_eq, isPow2_iff]
  rintro ⟨k, rfl⟩
  have hbit : (2 ^ k).testBit i = true := ((mem_cover ..).1 hp).2
  rw [Nat.testBit_two_pow, decide_eq_true_iff] at hbit
  exact hne (by rw [hbit])

/-- A parity position that is numbered is in its own cover (R65). -/
theorem two_pow_mem_cover {m i : Nat} (h : 2 ^ i ≤ numPositions m) : 2 ^ i ∈ cover m i := by
  simp [h, Nat.one_le_two_pow]

end Sys2Proof.Machine

/-! The encoder's three loops (R102 to R104), and the codeword they make. -/

namespace Sys2Proof.Machine

/-- The placement loop puts the message bits at the data positions (R102). -/
theorem getLsbD_placeData {m p : Nat} (d : BitVec m) (hp : p ∈ dataPositions m) :
    (placeData m d).getLsbD p = d.getLsbD (m - 1 - didx p) := by
  obtain ⟨⟨hpos, hle⟩, hpow⟩ := (mem_dataPositions ..).1 hp
  simp [placeData, lt_codeLen, hle, hpow, Nat.ne_of_gt hpos]

section loops
variable (m : Nat) (c : BitVec (codeLen m))

/-- The parity loop writes no bit at other positions (R103). -/
theorem getLsbD_addParity_of_not_isPow2 {p : Nat} (hp : isPow2 p = false) :
    (addParity m c).getLsbD p = c.getLsbD p := by
  by_cases hlt : p < codeLen m
  · simp [addParity, hp, hlt]
  · simp [BitVec.getLsbD_of_ge, not_lt.1 hlt]

/-- A parity bit is the exclusive-or of the rest of its cover, which the parity loop leaves (R103). -/
theorem getLsbD_addParity_two_pow {i : Nat} (hi : 2 ^ i ≤ numPositions m) :
    (addParity m c).getLsbD (2 ^ i) =
      xorOver ((cover m i).filter (fun p => p != 2 ^ i)) (addParity m c).getLsbD := by
  have hpow : isPow2 (2 ^ i) = true := (isPow2_iff _).2 ⟨i, rfl⟩
  calc (addParity m c).getLsbD (2 ^ i)
      = xorOver ((cover m i).filter (fun p => p != 2 ^ i)) c.getLsbD := by
        simp [addParity, lt_codeLen, hi, hpow]
    _ = xorOver ((cover m i).filter (fun p => p != 2 ^ i)) (addParity m c).getLsbD := by
        refine xorOver_congr _ _ _ fun p hp => ?_
        obtain ⟨hcov, hne⟩ := List.mem_filter.1 hp
        exact (getLsbD_addParity_of_not_isPow2 m c
          (isPow2_eq_false_of_mem_cover hcov (bne_iff_ne.1 hne))).symm

/-- The overall parity step writes no numbered bit (R104). -/
theorem getLsbD_addOverall_of_pos {p : Nat} (hp : 1 ≤ p) :
    (addOverall m c).getLsbD p = c.getLsbD p := by
  by_cases hlt : p < codeLen m
  · simp [addOverall, hlt, Nat.ne_of_gt hp]
  · simp [BitVec.getLsbD_of_ge, not_lt.1 hlt]

/-- A set of numbered positions sums to the same before and after the overall parity step (R104). -/
theorem xorOver_addOverall {ps : List Nat} (h : ∀ p ∈ ps, 1 ≤ p) :
    xorOver ps (addOverall m c).getLsbD = xorOver ps c.getLsbD :=
  xorOver_congr _ _ _ fun p hp => getLsbD_addOverall_of_pos m c (h p hp)

theorem getLsbD_addOverall_zero :
    (addOverall m c).getLsbD 0 = xorOver (positions m) (addOverall m c).getLsbD := by
  rw [xorOver_addOverall m c fun p hp => ((mem_positions ..).1 hp).1]
  simp [addOverall, lt_codeLen]

end loops

/-- Data position `p` of a codeword holds the message bit of its place (R102). -/
theorem getLsbD_encodeVec_dataPosition {m p : Nat} (d : BitVec m) (hp : p ∈ dataPositions m) :
    (encodeVec m d).getLsbD p = d.getLsbD (m - 1 - didx p) := by
  obtain ⟨⟨hpos, -⟩, hpow⟩ := (mem_dataPositions ..).1 hp
  calc (encodeVec m d).getLsbD p
      = (addParity m (placeData m d)).getLsbD p := getLsbD_addOverall_of_pos m _ hpos
    _ = (placeData m d).getLsbD p := getLsbD_addParity_of_not_isPow2 m _ hpow
    _ = d.getLsbD (m - 1 - didx p) := getLsbD_placeData d hp

/-- Message character `j` is at data position `dpos(j)` (R102). -/
theorem getLsbD_encodeVec_dpos {m j : Nat} (d : BitVec m) (hj : j < m) :
    (encodeVec m d).getLsbD (dpos m j) = d.getLsbD (m - 1 - j) := by
  rw [getLsbD_encodeVec_dataPosition d (dpos_mem hj), didx_dpos hj]

theorem getLsbD_encodeVec_two_pow {m i : Nat} (d : BitVec m) (hi : 2 ^ i ≤ numPositions m) :
    (encodeVec m d).getLsbD (2 ^ i) =
      xorOver ((cover m i).filter (fun p => p != 2 ^ i)) (encodeVec m d).getLsbD := by
  have hpos : ∀ p ∈ (cover m i).filter (fun p => p != 2 ^ i), 1 ≤ p := fun p hp =>
    ((mem_cover ..).1 (List.mem_of_mem_filter hp)).1.1
  calc (encodeVec m d).getLsbD (2 ^ i)
      = (addParity m (placeData m d)).getLsbD (2 ^ i) :=
        getLsbD_addOverall_of_pos m _ Nat.one_le_two_pow
    _ = xorOver ((cover m i).filter (fun p => p != 2 ^ i)) (addParity m (placeData m d)).getLsbD :=
        getLsbD_addParity_two_pow m _ hi
    _ = xorOver ((cover m i).filter (fun p => p != 2 ^ i)) (encodeVec m d).getLsbD :=
        (xorOver_addOverall m _ hpos).symm

theorem encodeVec_isCodewordOf (m : Nat) (d : BitVec m) : Spec.IsCodewordOf m d (encodeVec m d) :=
  ⟨fun _ => getLsbD_encodeVec_dpos d,
    fun _ hi => getLsbD_encodeVec_two_pow d (two_pow_le_numPositions hi),
    getLsbD_addOverall_zero m _⟩

section codeword
variable {m : Nat} {d : BitVec m} {c : BitVec (codeLen m)} (h : Spec.IsCodewordOf m d c)
include h

/-- Every parity check of a codeword is even (R103). -/
theorem xorOver_cover_of_isCodewordOf {i : Nat} (hi : i < rpar m) :
    xorOver (cover m i) c.getLsbD = false := by
  obtain ⟨-, hparity, -⟩ := h
  rw [xorOver_split _ _ (2 ^ i) (cover_nodup m i) (two_pow_mem_cover (two_pow_le_numPositions hi)),
    ← hparity i hi, Bool.xor_self]

/-- A codeword as a whole is even (R104). -/
theorem xorOver_range_of_isCodewordOf : xorOver (List.range (codeLen m)) c.getLsbD = false := by
  obtain ⟨-, -, hoverall⟩ := h
  have hbits : List.range (codeLen m) = 0 :: positions m := by
    rw [List.range_eq_range', codeLen, List.range'_succ, positions]
  rw [hbits, xorOver_cons, ← hoverall, Bool.xor_self]

end codeword

theorem xorOver_eq_false {ps : List Nat} {e : Nat → Bool} (h : ∀ p ∈ ps, e p = false) :
    xorOver ps e = false := by
  induction ps with
  | nil => rfl
  | cons p ps ih =>
    rw [xorOver_cons, h p List.mem_cons_self, ih fun q hq => h q (List.mem_cons_of_mem p hq),
      Bool.xor_self]

/-- Each of the encoder's loops writes zeros where it reads zeros. -/
theorem encodeVec_zero (m : Nat) : encodeVec m 0 = 0 := by
  have hplace : placeData m 0 = 0 := BitVec.eq_of_getLsbD_eq fun p hp => by simp [placeData]
  have hparity : addParity m 0 = 0 := BitVec.eq_of_getLsbD_eq fun p hp => by
    simp [addParity, xorOver_eq_false]
  have hoverall : addOverall m 0 = 0 := BitVec.eq_of_getLsbD_eq fun p hp => by
    simp [addOverall, xorOver_eq_false]
  rw [encodeVec, hplace, hparity, hoverall]

/-- Settles O6: the word on `y_o` is what the three loops make of the message, and the even checks follow
from its parity bits. -/
theorem encodeRequestGivesCodeword : Obligations.EncodeRequestGivesCodeword := by
  intro s idx a
  have hcode := encodeVec_isCodewordOf s.m (messageOperand s.m a)
  refine ⟨_, encodeVec s.m (messageOperand s.m a), rfl, hcode,
    fun i => xorOver_cover_of_isCodewordOf hcode, xorOver_range_of_isCodewordOf hcode, fun hzero => ?_,
    ⟨_, rfl, rfl, rfl⟩, rfl⟩
  rw [messageOperand, hzero, encodeVec_zero]

end Sys2Proof.Machine

/-! The string-level `encode` (R107). -/

namespace Sys2Proof.Machine

theorem isBinaryChar_iff (c : Char) : isBinaryChar c = true ↔ c = '0' ∨ c = '1' := by
  simp [isBinaryChar]

theorem isBinary_iff (s : List Char) : isBinary s = true ↔ ∀ c ∈ s, c = '0' ∨ c = '1' := by
  simp [isBinary, isBinaryChar_iff]

theorem isBinary_eq_false_iff (s : List Char) : isBinary s = false ↔ ∃ c ∈ s, c ≠ '0' ∧ c ≠ '1' := by
  rw [← Bool.not_eq_true, isBinary_iff]
  push Not
  rfl

/-- The three checks of `encode(s, m)` and their one error (R107). -/
theorem encodeStr_eq_error_iff (s : List Char) (m : Int) (e : CodecError) :
    encodeStr s m = .error e ↔
      e = .invalidInput ∧ (m < 1 ∨ (s.length : Int) ≠ m ∨ isBinary s = false) := by
  unfold encodeStr
  by_cases hm : m < 1
  · simp [hm, @eq_comm _ e]
  by_cases hlen : (s.length : Int) ≠ m
  · simp [hm, hlen, @eq_comm _ e]
  by_cases hbin : isBinary s = true
  · simp [hm, hlen, hbin]
  · simp [hm, hlen, hbin, @eq_comm _ e]

/-- A binary string of a valid width is encoded (R107). -/
theorem encodeStr_of_isBinary {s : List Char} {m : Nat} (hm : 1 ≤ m) (hlen : s.length = m)
    (hbin : isBinary s = true) : encodeStr s m = .ok (bitsStr (encodeVec m (bitsVec m s))) := by
  have hwidth : ¬ (m : Int) < 1 := by omega
  simp [encodeStr, hwidth, hlen, hbin]

/-- String index `N - p` of a codeword string is the character of position `p` (R68). -/
theorem getElem?_bitsStr_codeword {m p : Nat} (x : BitVec (codeLen m)) (hp : p ≤ numPositions m) :
    (bitsStr x)[numPositions m - p]? = some (bitChar (x.getLsbD p)) := by
  have hlt : numPositions m - p < (bitsStr x).length := by
    rw [length_bitsStr, lt_codeLen]
    omega
  have hvec : vecIndex (codeLen m) (numPositions m - p) = p := by
    unfold vecIndex codeLen
    omega
  rw [List.getElem?_eq_getElem hlt, getElem_bitsStr, hvec]

/-- Message character `j` is in the codeword string at index `N - dpos(j)` (R107). -/
theorem getElem?_bitsStr_encodeVec {s : List Char} {m j : Nat} (hlen : s.length = m)
    (hbin : isBinary s = true) (hj : j < m) :
    (bitsStr (encodeVec m (bitsVec m s)))[numPositions m - dpos m j]? = s[j]? := by
  obtain ⟨⟨-, hle⟩, -⟩ := (mem_dataPositions ..).1 (dpos_mem hj)
  have hjs : j < s.length := hlen ▸ hj
  calc (bitsStr (encodeVec m (bitsVec m s)))[numPositions m - dpos m j]?
      = some (bitChar ((encodeVec m (bitsVec m s)).getLsbD (dpos m j))) :=
        getElem?_bitsStr_codeword _ hle
    _ = some (bitChar ((bitsVec m s).getLsbD (vecIndex m j))) := by
        rw [getLsbD_encodeVec_dpos _ hj, vecIndex]
    _ = some (bitChar (s[j] == '1')) := by rw [getLsbD_bitsVec_vecIndex hlen hjs]
    _ = s[j]? := by
        rw [bitChar_of_isBinaryChar (isBinaryChar_getElem hbin hjs), List.getElem?_eq_getElem hjs]

/-- The one-argument form is the two-argument form at the data width of the state (R107). -/
theorem callEncode_none_width (t : Option (List Char)) (s : State) :
    callEncode t none s = callEncode t (some s.m) s := rfl

/-- Settles O28: the error conditions are the three checks, and a message character keeps its value on the
way through `msg_vec`, its data position and `cw_str`. -/
theorem stringEncode : Obligations.StringEncode := by
  refine ⟨fun s m => ?_, fun s m hm hlen hchars => ?_,
    fun s m e he => ((encodeStr_eq_error_iff s m e).1 he).1, fun s u rest hcalls => ?_⟩
  · simp [encodeStr_eq_error_iff, isBinary_eq_false_iff]
  · have hbin : isBinary s = true := (isBinary_iff s).2 hchars
    exact ⟨_, encodeStr_of_isBinary hm hlen hbin, rfl, length_bitsStr _,
      fun j => getElem?_bitsStr_encodeVec hlen hbin⟩
  · simp [step, hcalls, callEncode_none_width]

end Sys2Proof.Machine

/-! The syndrome as the vector of parity checks (R122, R123), and the decoder's results by its status (R127,
R128, R131). -/

namespace Sys2Proof.Machine

/-- The value of a vector is the sum of the powers of two at its ones. -/
theorem toNat_vec (n : Nat) (f : Nat → Bool) :
    (vec n f).toNat = ((List.range n).map (fun i => if f i then 2 ^ i else 0)).sum := by
  induction n with
  | zero => rfl
  | succ n ih =>
    rw [vec, BitVec.toNat_cons', ih, List.range_succ]
    cases h : f n <;> simp [h, Nat.shiftLeft_eq, Nat.add_comm]

/-- The syndrome has the checks as its bits, check `i` at bit `i` (R123). -/
theorem syndrome_eq_toNat_vec (m : Nat) {n : Nat} (x : BitVec n) :
    syndrome m x = (vec (rpar m) (parityCheck m x)).toNat :=
  (toNat_vec _ _).symm

/-- The syndrome fits its port (R123). -/
theorem syndrome_lt_two_pow (m : Nat) {n : Nat} (x : BitVec n) : syndrome m x < 2 ^ rpar m := by
  rw [syndrome_eq_toNat_vec]
  exact BitVec.isLt _

/-- The bits of the syndrome port are the checks (R132). -/
theorem getLsbD_ofNat_syndrome {m i : Nat} {n : Nat} (x : BitVec n) (hi : i < rpar m) :
    (BitVec.ofNat (rpar m) (syndrome m x)).getLsbD i = parityCheck m x i := by
  rw [syndrome_eq_toNat_vec, BitVec.ofNat_toNat, BitVec.setWidth_eq, getLsbD_vec, decide_eq_true hi,
    Bool.true_and]

/-- Only one row of the table reports a corrected bit: a mismatch whose syndrome names a position (R127,
R129). -/
theorem classify_eq_singleBitCorrected_iff (m syn : Nat) (mm : Bool) :
    classify m syn mm = .singleBitCorrected ↔ syn ≠ 0 ∧ mm = true ∧ syn ≤ numPositions m := by
  unfold classify
  by_cases hsyn : syn = 0
  · cases mm <;> simp [hsyn]
  · by_cases hle : syn ≤ numPositions m <;> cases mm <;> simp [hsyn, hle]

/-- A position is reported exactly with the status of a corrected bit (R131). -/
theorem isSome_correctedPos_iff (st : Status) (syn : Nat) :
    (correctedPos st syn).isSome = true ↔ st = .singleBitCorrected := by
  cases st <;> simp [correctedPos]

section decodeVec
variable {m : Nat} {x : BitVec (codeLen m)}

theorem decodeVec_status :
    (decodeVec m x).status = classify m (syndrome m x) (parityMismatch m x) := rfl

/-- A corrected bit is the one at the position the syndrome names (R128). -/
theorem decodeVec_of_singleBitCorrected (h : (decodeVec m x).status = .singleBitCorrected) :
    (decodeVec m x).y = toggle x (syndrome m x) ∧ (decodeVec m x).pos = some (syndrome m x) := by
  rw [decodeVec_status] at h
  simp [decodeVec, h, correctedPos, correct]

/-- With any other status the word is returned unchanged and no position is reported (R130, R131). -/
theorem decodeVec_of_ne_singleBitCorrected (h : (decodeVec m x).status ≠ .singleBitCorrected) :
    (decodeVec m x).y = x ∧ (decodeVec m x).pos = none := by
  have hpos : correctedPos (decodeVec m x).status (syndrome m x) = none := by
    rwa [← Option.not_isSome_iff_eq_none, isSome_correctedPos_iff]
  exact ⟨congrArg (correct x) hpos, hpos⟩

/-- A status of the table that is not that of a corrected bit comes with the word unchanged. -/
theorem decodeVec_unchanged {st : Status}
    (h : classify m (syndrome m x) (parityMismatch m x) = st) (hst : st ≠ .singleBitCorrected) :
    (decodeVec m x).status = st ∧ (decodeVec m x).y = x ∧ (decodeVec m x).pos = none :=
  ⟨h, decodeVec_of_ne_singleBitCorrected fun hcorr => hst (h.symm.trans hcorr)⟩

end decodeVec

/-- The decoder follows table 41-1, one row after the other (R127, R129). -/
theorem decodeVec_classifiedAs (m : Nat) (x : BitVec (codeLen m)) :
    Spec.ClassifiedAs m x (syndrome m x) (parityMismatch m x) (decodeVec m x).y (decodeVec m x).status
      (decodeVec m x).pos := by
  refine ⟨fun hsyn hmm => ?_, fun hsyn hmm hle => ?_, fun hsyn hmm hgt => ?_, fun hsyn hmm => ?_,
    fun hsyn hmm => ?_⟩
  · exact decodeVec_unchanged (by simp [classify, hsyn, hmm]) (by decide)
  · have hst : (decodeVec m x).status = .singleBitCorrected :=
      (classify_eq_singleBitCorrected_iff ..).2 ⟨hsyn, hmm, hle⟩
    obtain ⟨hy, hpos⟩ := decodeVec_of_singleBitCorrected hst
    refine ⟨hst, hpos, fun p hp => ?_⟩
    rw [hy, getLsbD_toggle]
    by_cases hpsyn : p = syndrome m x
    · simp [← hpsyn, hp]
    · simp [hpsyn]
  · exact decodeVec_unchanged (by simp [classify, hsyn, hmm, hgt]) (by decide)
  · exact decodeVec_unchanged (by simp [classify, hsyn, hmm]) (by decide)
  · exact decodeVec_unchanged (by simp [classify, hsyn, hmm]) (by decide)

/-- A reported position is a numbered position (R129, R131). -/
theorem decodeVec_pos_le (m : Nat) (x : BitVec (codeLen m)) :
    (decodeVec m x).pos.getD 0 ≤ numPositions m := by
  by_cases hst : (decodeVec m x).status = .singleBitCorrected
  · obtain ⟨-, hpos⟩ := decodeVec_of_singleBitCorrected hst
    obtain ⟨-, -, hle⟩ := (classify_eq_singleBitCorrected_iff ..).1 hst
    simpa [hpos] using hle
  · obtain ⟨-, hpos⟩ := decodeVec_of_ne_singleBitCorrected hst
    simp [hpos]

/-- A reported string index is one of the codeword's (R131). -/
theorem decodeVec_idx_lt (m : Nat) (x : BitVec (codeLen m)) :
    (decodeVec m x).idx.getD 0 < codeLen m := by
  rw [lt_codeLen, decodeVec]
  cases correctedPos (classify m (syndrome m x) (parityMismatch m x)) (syndrome m x) with
  | none => exact Nat.zero_le _
  | some p => exact Nat.sub_le _ _

/-- Every bit number of a codeword fits the index port (R7). -/
theorem codeLen_lt_two_pow (m : Nat) : codeLen m < 2 ^ idxWidth m :=
  (bitlen_le _ _).1 le_rfl

/-- Settles O7: the ports carry the decoder's results, each of which fits its port, and those follow
table 41-1. -/
theorem decodeRequestClassifiesAndCorrects : Obligations.DecodeRequestClassifiesAndCorrects := by
  intro s idx a
  have hsyn : (BitVec.ofNat (rpar s.m) (syndrome s.m (codewordOperand s.m a))).toNat =
      syndrome s.m (codewordOperand s.m a) := Nat.mod_eq_of_lt (syndrome_lt_two_pow _ _)
  refine ⟨_, _, (decodeVec s.m (codewordOperand s.m a)).y, (decodeVec s.m (codewordOperand s.m a)).status,
    (decodeVec s.m (codewordOperand s.m a)).pos, rfl, rfl, ⟨rfl, fun _ => getLsbD_ofNat_syndrome _, rfl, ?_⟩,
    rfl, rfl, rfl, rfl, ?_, rfl, ?_, rfl, rfl⟩
  · have htable := decodeVec_classifiedAs s.m (codewordOperand s.m a)
    rw [← hsyn] at htable
    exact htable
  · exact Nat.mod_eq_of_lt ((decodeVec_pos_le ..).trans_lt (numPositions_lt_two_pow _))
  · exact Nat.mod_eq_of_lt ((decodeVec_idx_lt ..).trans (codeLen_lt_two_pow _))

end Sys2Proof.Machine

/-! The decoder's checks on a codeword with an error vector (R136): neither depends on the codeword, the
syndrome is the exclusive-or of the positions in error, the mismatch the parity of the error's weight. -/

namespace Sys2Proof.Machine

/-- The exclusive-or of the bits `e` over a list is the parity of the number of ones. -/
theorem xorOver_eq_decide_odd (ps : List Nat) (e : Nat → Bool) :
    xorOver ps e = decide ((ps.filter e).length % 2 = 1) := by
  induction ps with
  | nil => rfl
  | cons p ps ih =>
    cases hp : e p
    · simp [hp, ih]
    · simp only [xorOver_cons, hp, ih, List.filter_cons_of_pos, List.length_cons, Bool.true_xor,
        ← decide_not, decide_eq_decide]
      omega

/-- Bit `i` of the exclusive-or of positions is that of the bits over the positions that have it set. -/
theorem testBit_foldr_xor (ps : List Nat) (e : Nat → Bool) (i : Nat) :
    ((ps.filter e).foldr (fun p acc => p ^^^ acc) 0).testBit i =
      xorOver (ps.filter (fun p => p.testBit i)) e := by
  induction ps with
  | nil => simp
  | cons p ps ih => cases hp : e p <;> cases hi : p.testBit i <;> simp [hp, hi, ih]

/-- No position has a bit at or above the parity width (R61). -/
theorem cover_eq_nil {m i : Nat} (hi : rpar m ≤ i) : cover m i = [] := by
  refine List.filter_eq_nil_iff.2 fun p hp => ?_
  obtain ⟨-, hle⟩ := (mem_positions ..).1 hp
  have hlt : p < 2 ^ i := calc
    p ≤ numPositions m := hle
    _ < 2 ^ rpar m := numPositions_lt_two_pow m
    _ ≤ 2 ^ i := Nat.pow_le_pow_right Nat.two_pos hi
  simp [Nat.testBit_lt_two_pow hlt]

theorem testBit_syndrome (m : Nat) {n : Nat} (x : BitVec n) (i : Nat) :
    (syndrome m x).testBit i = parityCheck m x i := by
  rw [syndrome_eq_toNat_vec, BitVec.testBit_toNat, getLsbD_vec]
  by_cases hi : i < rpar m
  · simp [hi]
  · simp [hi, parityCheck, cover_eq_nil (not_lt.1 hi)]

/-- The syndrome is the exclusive-or of the numbered positions that hold a one (R136). -/
theorem syndrome_eq_foldr_xor (m : Nat) {n : Nat} (x : BitVec n) :
    syndrome m x = ((positions m).filter x.getLsbD).foldr (fun p acc => p ^^^ acc) 0 :=
  Nat.eq_of_testBit_eq fun i => by rw [testBit_syndrome, testBit_foldr_xor, parityCheck, cover]

/-- The bits of a codeword are the overall parity bit and the numbered positions (R66). -/
theorem range_codeLen (m : Nat) : List.range (codeLen m) = 0 :: positions m := by
  rw [List.range_eq_range', codeLen, List.range'_succ, positions]

theorem xorOver_getLsbD_xor (ps : List Nat) {n : Nat} (x y : BitVec n) :
    xorOver ps (x ^^^ y).getLsbD = (xorOver ps x.getLsbD ^^ xorOver ps y.getLsbD) := by
  rw [← xorOver_xor]
  exact xorOver_congr _ _ _ fun p _ => BitVec.getLsbD_xor

/-- The mismatch is the exclusive-or of all bits of the word (R124). -/
theorem parityMismatch_eq_xorOver (m : Nat) {n : Nat} (x : BitVec n) :
    parityMismatch m x = xorOver (List.range (codeLen m)) x.getLsbD := by
  rw [range_codeLen, xorOver_cons, Bool.xor_comm]
  rfl

section error
variable {m : Nat} (d : BitVec m) (e : BitVec (codeLen m))

/-- The syndrome of a codeword with errors is that of the error vector (R136). -/
theorem syndrome_encodeVec_xor : syndrome m (encodeVec m d ^^^ e) = syndrome m e := by
  refine Nat.eq_of_testBit_eq fun i => ?_
  simp only [testBit_syndrome, parityCheck, xorOver_getLsbD_xor]
  by_cases hi : i < rpar m
  · rw [xorOver_cover_of_isCodewordOf (encodeVec_isCodewordOf m d) hi, Bool.false_xor]
  · simp [cover_eq_nil (not_lt.1 hi)]

/-- The mismatch of a codeword with errors is the parity of their number (R136). -/
theorem parityMismatch_encodeVec_xor :
    parityMismatch m (encodeVec m d ^^^ e) = decide (Spec.weight e % 2 = 1) := by
  rw [parityMismatch_eq_xorOver, xorOver_getLsbD_xor,
    xorOver_range_of_isCodewordOf (encodeVec_isCodewordOf m d), Bool.false_xor, xorOver_eq_decide_odd,
    Spec.weight]

/-- The numbered positions of a word hold no more ones than the word. -/
theorem length_filter_positions_le_weight :
    ((positions m).filter e.getLsbD).length ≤ Spec.weight e := by
  rw [Spec.weight, range_codeLen]
  exact ((List.sublist_cons_self 0 (positions m)).filter _).length_le

/-- A single one is named by its position, or by none. -/
theorem syndrome_le_of_weight_le_one (h : Spec.weight e ≤ 1) : syndrome m e ≤ numPositions m := by
  have hlen : ((positions m).filter e.getLsbD).length ≤ 1 :=
    (length_filter_positions_le_weight e).trans h
  rw [syndrome_eq_foldr_xor]
  cases hps : (positions m).filter e.getLsbD with
  | nil => exact Nat.zero_le _
  | cons p ps =>
    obtain rfl : ps = [] := by simpa [hps] using hlen
    have hp : p ∈ positions m := List.mem_of_mem_filter (hps ▸ List.mem_cons_self)
    obtain ⟨-, hle⟩ := (mem_positions ..).1 hp
    simpa using hle

/-- An odd number of flips that name no position are at least three (R129). -/
theorem three_le_weight_of_syndrome_gt (hsyn : numPositions m < syndrome m (encodeVec m d ^^^ e))
    (hmm : parityMismatch m (encodeVec m d ^^^ e) = true) : 3 ≤ Spec.weight e := by
  rw [syndrome_encodeVec_xor] at hsyn
  rw [parityMismatch_encodeVec_xor, decide_eq_true_iff] at hmm
  have htwo : 2 ≤ Spec.weight e := by
    by_contra hlt
    have hle := syndrome_le_of_weight_le_one e (by omega)
    omega
  omega

end error

/-- Settles O23: the third row of table 41-1; the single flips name a position; and a syndrome has `R`
bits. -/
theorem syndromeAboveTheLastPosition : Obligations.SyndromeAboveTheLastPosition := by
  refine ⟨fun m _ x hsyn hmm => ?_, fun m _ => three_le_weight_of_syndrome_gt, fun m hm x => ?_, ?_⟩
  · obtain ⟨-, -, habove, -⟩ := decodeVec_classifiedAs m x
    exact habove (Nat.ne_zero_of_lt hsyn) hmm hsyn
  · rw [hm]
    exact Nat.le_sub_one_of_lt (syndrome_lt_two_pow m x)
  · rintro m (rfl | rfl | rfl | rfl | rfl | rfl) <;> decide

end Sys2Proof.Machine

/-! The data width recovered from a codeword length (R62), and the string-level `decode` (R135). -/

namespace Sys2Proof.Machine

/-- The search of R62 returns only a pair whose widths add up to the number of positions. -/
theorem lenParamsFrom_sound {n tries r m r' : Nat} (h : lenParamsFrom n tries r = some (m, r')) :
    1 ≤ m ∧ rpar m = r' ∧ m + r' = n := by
  induction tries generalizing r with
  | zero => cases h
  | succ tries ih =>
    rw [lenParamsFrom] at h
    split at h
    next hhit =>
      cases h
      obtain ⟨hpos, hrpar⟩ := hhit
      exact ⟨hpos, hrpar, by omega⟩
    next => exact ih h

/-- The search of R62 returns a pair if one is among its tries. -/
theorem lenParamsFrom_ne_none {n tries r i : Nat} (hri : r ≤ i) (hi : i < r + tries) (hpos : 1 ≤ n - i)
    (hrpar : rpar (n - i) = i) : lenParamsFrom n tries r ≠ none := by
  induction tries generalizing r with
  | zero => omega
  | succ tries ih =>
    rw [lenParamsFrom]
    split
    next => exact Option.some_ne_none _
    next hmiss =>
      have hne : r ≠ i := by
        rintro rfl
        exact hmiss ⟨hpos, hrpar⟩
      exact ih (by omega) (by omega)

/-- A number of positions belongs to one data width only (R62): its bit length is the parity width. -/
theorem numPositions_injective {m m' : Nat} (h : numPositions m = numPositions m') : m = m' := by
  have hr : rpar m = rpar m' := by rw [← bitlen_numPositions, h, bitlen_numPositions]
  unfold numPositions at h
  omega

/-- The length of a codeword gives its data width back (R62). -/
theorem lenParams_codeLen {m : Nat} (hm : 1 ≤ m) : lenParams (codeLen m) = some (m, rpar m) := by
  have hsub : numPositions m - rpar m = m := Nat.add_sub_cancel ..
  have hhit : lenParams (codeLen m) ≠ none :=
    lenParamsFrom_ne_none (n := numPositions m) (i := rpar m) (Nat.zero_le _)
      (by unfold codeLen numPositions; omega) (by rwa [hsub]) (by rw [hsub])
  obtain ⟨⟨m', r'⟩, hsome⟩ := Option.ne_none_iff_exists'.1 hhit
  obtain ⟨-, rfl, hsum⟩ := lenParamsFrom_sound hsome
  obtain rfl : m' = m := numPositions_injective hsum
  exact hsome

/-- A recovered pair is that of an instance with this codeword length (R62). -/
theorem lenParams_eq_some {len m r : Nat} (h : lenParams len = some (m, r)) :
    1 ≤ m ∧ rpar m = r ∧ codeLen m = len := by
  obtain ⟨hm, rfl, hsum⟩ := lenParamsFrom_sound h
  exact ⟨hm, rfl, by unfold codeLen numPositions; omega⟩

/-- A length is refused exactly when it is that of no instance (R62). -/
theorem lenParams_eq_none_iff (len : Nat) :
    lenParams len = none ↔ ∀ m, 1 ≤ m → m + rpar m + 1 ≠ len := by
  constructor
  · rintro h m hm rfl
    cases h.symm.trans (lenParams_codeLen hm)
  · intro h
    refine Option.eq_none_iff_forall_ne_some.2 fun p hp => ?_
    obtain ⟨hm, -, hlen⟩ := lenParams_eq_some hp
    exact h _ hm hlen

/-- The two checks of `decode(s)` and their one error (R135). -/
theorem decodeStr_eq_error_iff (s : List Char) (e : CodecError) :
    decodeStr s = .error e ↔
      e = .invalidInput ∧ (isBinary s = false ∨ lenParams s.length = none) := by
  unfold decodeStr
  cases hbin : isBinary s with
  | false => simp [@eq_comm _ e]
  | true => cases hlen : lenParams s.length <;> simp [@eq_comm _ e]

/-- A binary string of a codeword's length is decoded by the instance of that length (R135). -/
theorem decodeStr_of_isBinary {s : List Char} {m : Nat} (hm : 1 ≤ m) (hlen : s.length = codeLen m)
    (hbin : isBinary s = true) :
    decodeStr s = .ok (bitsStr (decodeVec m (bitsVec (codeLen m) s)).y,
      (decodeVec m (bitsVec (codeLen m) s)).status, (decodeVec m (bitsVec (codeLen m) s)).idx) := by
  simp [decodeStr, hbin, hlen, lenParams_codeLen hm]

/-- A string that is decoded is binary and has the length of an instance (R135). -/
theorem isBinary_of_decodeStr_eq_ok {s : List Char} {r : List Char × Status × Option Nat}
    (h : decodeStr s = .ok r) : isBinary s = true ∧ ∃ m, 1 ≤ m ∧ s.length = codeLen m := by
  have herr : ¬ (isBinary s = false ∨ lenParams s.length = none) := fun hcheck => by
    cases h.symm.trans ((decodeStr_eq_error_iff s _).2 ⟨rfl, hcheck⟩)
  obtain ⟨hbin, hlen⟩ := not_or.1 herr
  obtain ⟨⟨m, r'⟩, hsome⟩ := Option.ne_none_iff_exists'.1 hlen
  obtain ⟨hm, -, hcode⟩ := lenParams_eq_some hsome
  exact ⟨by simpa using hbin, m, hm, hcode.symm⟩

/-- A string index is reported exactly with the status of a corrected bit (R131). -/
theorem isSome_decodeVec_idx_iff (m : Nat) (x : BitVec (codeLen m)) :
    (decodeVec m x).idx.isSome = true ↔ (decodeVec m x).status = .singleBitCorrected := by
  rw [← isSome_correctedPos_iff _ (syndrome m x), decodeVec, Option.isSome_map]

/-- Settles O29: the error conditions are the two checks, the result is that of the decoder at the
recovered width. -/
theorem stringDecode : Obligations.StringDecode := by
  refine ⟨fun s => ?_, fun s m hm hlen hchars => decodeStr_of_isBinary hm hlen ((isBinary_iff s).2 hchars),
    fun s u st k h => ?_⟩
  · simp [decodeStr_eq_error_iff, isBinary_eq_false_iff, lenParams_eq_none_iff]
  · obtain ⟨hbin, m, hm, hlen⟩ := isBinary_of_decodeStr_eq_ok h
    cases h.symm.trans (decodeStr_of_isBinary hm hlen hbin)
    exact ⟨(length_bitsStr _).trans hlen.symm, isSome_decodeVec_idx_iff m _⟩

end Sys2Proof.Machine

/-! The injector (R150 to R154): one bit of a vector, one character of a string, by the range of the index. -/

namespace Sys2Proof.Machine

/-- Inverting a bit, read bit by bit (R150). -/
theorem getLsbD_toggle_of_lt {n q : Nat} (v : BitVec n) (p : Nat) (hq : q < n) :
    (toggle v p).getLsbD q = if q = p then !v.getLsbD q else v.getLsbD q := by
  rw [getLsbD_toggle]
  split
  next heq => simp [← heq, hq]
  next hne => simp [hne]

/-- Settles O8: in range the result is the toggled operand, on the wrapper and in the operation itself. -/
theorem flipRequestInvertsOneBit : Obligations.FlipRequestInvertsOneBit := by
  refine ⟨fun s idx a hk => ?_, fun s idx a hk => ⟨_, execFlip_outOfRange idx a s hk, rfl⟩,
    fun n v k hk => ⟨_, flipVec_inRange v hk, fun b => getLsbD_toggle_of_lt v _⟩,
    fun n v k => flipVec_outOfRange v⟩
  exact ⟨_, _, execFlip_inRange idx a s hk, fun b => getLsbD_toggle_of_lt _ _, ⟨_, rfl, rfl, rfl⟩, rfl⟩

/-- Settles O9: both levels make the one range test of R152. -/
theorem flipIndexOutOfRangeFails : Obligations.FlipIndexOutOfRangeFails := by
  refine ⟨fun s idx a hk => ⟨_, execFlip_outOfRange idx a s hk, ⟨_, rfl, rfl⟩, rfl⟩,
    fun n v k hk => flipVec_outOfRange v (by omega), fun n v k hk hkn => ?_⟩
  obtain ⟨j, rfl⟩ := Int.eq_ofNat_of_zero_le hk
  exact ⟨_, flipVec_inRange v (by exact_mod_cast hkn)⟩

/-- The operand check of `flip_bit(s, k)` comes first (R154, R168). -/
theorem flipStr_of_not_isBinary {s : List Char} (h : isBinary s = false) (k : Int) :
    flipStr s k = .error .invalidInput := by
  simp [flipStr, h]

/-- The index check of `flip_bit(s, k)` (R154). -/
theorem flipStr_outOfRange {s : List Char} (h : isBinary s = true) {k : Int}
    (hk : k < 0 ∨ (s.length : Int) ≤ k) : flipStr s k = .error .indexOutOfRange := by
  simp [flipStr, h, hk]

/-- A binary string and an index in range: one character is inverted (R154). -/
theorem flipStr_inRange {s : List Char} (h : isBinary s = true) {k : Nat} (hk : k < s.length) :
    flipStr s k = .ok (s.modify k flipChar) := by
  simp [flipStr, h, hk]

/-- The inverted character is the character of the inverted bit. -/
theorem bitChar_not_eq_flipChar {c : Char} (h : isBinaryChar c = true) :
    bitChar (!(c == '1')) = flipChar c := by
  rcases (isBinaryChar_iff c).1 h with rfl | rfl <;> decide

theorem vecIndex_inj {n j k : Nat} (hj : j < n) (hk : k < n) : vecIndex n j = vecIndex n k ↔ j = k := by
  unfold vecIndex
  omega

/-- Inverting a character of a binary string is inverting the bit of its vector at that string index
(R71, R154). -/
theorem bitsStr_toggle_bitsVec {s : List Char} (h : isBinary s = true) {k : Nat} (hk : k < s.length) :
    bitsStr (toggle (bitsVec s.length s) (vecIndex s.length k)) = s.modify k flipChar := by
  apply List.ext_getElem (by simp)
  intro j _ hj
  rw [List.length_modify] at hj
  have hbin : isBinaryChar s[j] = true := isBinaryChar_getElem h hj
  rw [getElem_bitsStr, getLsbD_toggle_of_lt _ _ (vecIndex_lt hj), getLsbD_bitsVec_vecIndex rfl hj,
    List.getElem_modify]
  by_cases heq : k = j
  · subst heq
    simp [bitChar_not_eq_flipChar hbin]
  · simp [heq, vecIndex_inj hj hk, Ne.symm heq, bitChar_of_isBinaryChar hbin]

/-- Settles O30: the two checks in their order, then one character inverted, which is the bit-level `FLIP`
on the string's vector. -/
theorem stringFlip : Obligations.StringFlip := by
  refine ⟨fun s k hbad => flipStr_of_not_isBinary ((isBinary_eq_false_iff s).2 hbad) k,
    fun s k hchars => flipStr_outOfRange ((isBinary_iff s).2 hchars), fun s k hchars hk => ?_⟩
  have hbin : isBinary s = true := (isBinary_iff s).2 hchars
  refine ⟨_, flipStr_inRange hbin hk, List.length_modify .., ?_, fun j hj => ?_,
    _, flipVec_inRange _ hk, (bitsStr_toggle_bitsVec hbin hk).symm⟩
  · simp [hk, flipChar]
  · simp [Ne.symm hj]

end Sys2Proof.Machine

/-! Which operation reports which error, and which of several comes first (R165, R168). -/

namespace Sys2Proof.Machine

/-- The `err_o` of a request is that of the answer its operands and the data width fix. -/
theorem exec_err {i : Instr} {s t : State} {o : CorePorts} (h : exec i s = .next t)
    (ho : t.ports = some o) : o.err = ((wrapperAnswer s.m i).ports s.m s.freshCount).err := by
  obtain ⟨-, hports⟩ := exec_leaves_wrapperAnswer h
  cases ho.symm.trans hports
  rfl

/-- The one error of a `FLIP` request, by the range of its index (R152). -/
theorem wrapperAnswer_flip_err (m c : Nat) (idx a : Word) :
    ((wrapperAnswer m (.flip idx a)).ports m c).err =
      if codeLen m ≤ (indexOperand m idx).toNat then CodecError.indexOutOfRange.code else noErrorCode := by
  by_cases hk : (indexOperand m idx).toNat < codeLen m
  · rw [wrapperAnswer, if_pos hk, if_neg (not_le.2 hk)]
    rfl
  · rw [wrapperAnswer, if_neg hk, if_pos (not_lt.1 hk)]
    rfl

/-- The two checks of `flip_bit(s, k)` in their order, each with its error (R154, R168). -/
theorem flipStr_eq_error_iff (s : List Char) (k : Int) (e : CodecError) :
    flipStr s k = .error e ↔
      (e = .invalidInput ∧ isBinary s = false) ∨
      (e = .indexOutOfRange ∧ isBinary s = true ∧ (k < 0 ∨ (s.length : Int) ≤ k)) := by
  cases hbin : isBinary s with
  | false => simp [flipStr_of_not_isBinary hbin, @eq_comm _ e]
  | true =>
    by_cases hk : k < 0 ∨ (s.length : Int) ≤ k
    · simp [flipStr_outOfRange hbin hk, hk, @eq_comm _ e]
    · obtain ⟨j, rfl⟩ := Int.eq_ofNat_of_zero_le (not_lt.1 fun hneg => hk (.inl hneg))
      have hj : j < s.length := by omega
      simp [flipStr_inRange hbin hj, hj]

/-- Settles O13: on the wrapper each row of table 60-1 is the `err_o` of that operation's answer; at the
string level the errors of each function are its checks. -/
theorem errorsAreThoseOfTheTable : Obligations.ErrorsAreThoseOfTheTable := by
  refine ⟨fun s t i o h ho => ?_, fun s m e => ?_, fun s e => ?_, flipStr_eq_error_iff⟩
  · have herr := exec_err h ho
    refine ⟨fun hi => ?encode, fun hi => ?decode, fun hi => ?flip, fun hi => ?reserved⟩ <;>
      rw [herr, hi]
    case flip => exact wrapperAnswer_flip_err s.m s.freshCount i.idx i.a
    case encode | decode | reserved => rfl
  · rw [encodeStr_eq_error_iff, or_rotate]
  · rw [decodeStr_eq_error_iff, or_comm]

/-- Settles O31: the operand check of `flip_bit` does not look at the index, and neither does the answer
to the reserved code. -/
theorem errorPriority : Obligations.ErrorPriority :=
  ⟨fun _ k hbin _ => flipStr_of_not_isBinary hbin k,
    fun _ _ _ _ _ h => (exec_leaves_wrapperAnswer h).1⟩

end Sys2Proof.Machine

/-! Every call that can be presented returns, and takes no other call off the caller's list (R200, R195). -/

namespace Sys2Proof.Machine

/-- Every operation on the wrapper returns a result or an error and leaves the caller's list as it is
(R200). -/
theorem exec_returns (i : Instr) (s : State) :
    ∃ t r, exec i s = .next t ∧ t.reply = some r ∧ t.calls = s.calls := by
  obtain ⟨-, y, h⟩ | ⟨-, h⟩ | ⟨-, -, y, h⟩ | ⟨-, -, h⟩ | ⟨-, h⟩ := exec_cases i s <;>
    exact ⟨_, _, h, rfl, rfl⟩

/-- A request word of the port's width returns, since any operation code selects an operation (R82, R83). -/
theorem runRequest_returns {w : Word} {s : State} (hw : w.width = reqWidth s.m) :
    ∃ t r, runRequest w s = .next t ∧ t.reply = some r ∧ t.calls = s.calls := by
  rw [runRequest_width w s hw]
  exact exec_returns _ s

@[simp] theorem callEncode_calls (t : Option (List Char)) (d : Option Int) (s : State) :
    (callEncode t d s).calls = s.calls := by
  obtain ⟨u, h⟩ | ⟨e, h⟩ := callEncode_cases t d s <;> simp [h]

@[simp] theorem callDecode_calls (t : Option (List Char)) (s : State) :
    (callDecode t s).calls = s.calls := by
  obtain ⟨u, st, k, h⟩ | ⟨e, h⟩ := callDecode_cases t s <;> simp [h]

@[simp] theorem callFlip_calls (t : Option (List Char)) (k : Int) (s : State) :
    (callFlip t k s).calls = s.calls := by
  obtain ⟨u, h⟩ | ⟨e, h⟩ := callFlip_cases t k s <;> simp [h]

section step
variable {s : State} {rest : List Call} {t : Option (List Char)}

/-- A step whose next call is a string-level `encode` performs it on the state without that call. -/
theorem step_encode {d : Option Int} (h : s.calls = .encode t d :: rest) :
    step s = .next (callEncode t d { s with calls := rest }) := by
  unfold step
  rw [h]

/-- A step whose next call is a string-level `decode` performs it on the state without that call. -/
theorem step_decode (h : s.calls = .decode t :: rest) :
    step s = .next (callDecode t { s with calls := rest }) := by
  unfold step
  rw [h]

/-- A step whose next call is a string-level `flip_bit` performs it on the state without that call. -/
theorem step_flip {k : Int} (h : s.calls = .flip t k :: rest) :
    step s = .next (callFlip t k { s with calls := rest }) := by
  unfold step
  rw [h]

end step

/-- Settles O45, by the kind of the call: a presentable request runs an operation, and every operation and
every string-level call returns. -/
theorem everyCallReturns : Obligations.EveryCallReturns := by
  intro s c rest hc hpres
  cases c with
  | request w =>
    have hw : w.width = reqWidth s.m := beq_iff_eq.1 hpres
    rw [step_request s w rest hc]
    exact runRequest_returns hw
  | encode u d => exact ⟨_, _, step_encode hc, callEncode_reply .., callEncode_calls ..⟩
  | decode u => exact ⟨_, _, step_decode hc, callDecode_reply .., callDecode_calls ..⟩
  | flip u k => exact ⟨_, _, step_flip hc, callFlip_reply .., callFlip_calls ..⟩

end Sys2Proof.Machine

/-! A request word and its operation determine each other (R79, R82, R85). -/

namespace Sys2Proof

open Sys2Proof.Machine

/-- The four operation codes (R82). -/
theorem opCode_cases (op : BitVec 2) : op = 0b00#2 ∨ op = 0b01#2 ∨ op = 0b10#2 ∨ op = 0b11#2 := by
  revert op
  decide

section selectOp
variable (op : BitVec 2) (idx a : Word)

@[simp] theorem op_selectOp : (selectOp op idx a).op = op := by
  rcases opCode_cases op with rfl | rfl | rfl | rfl <;> rfl

@[simp] theorem idx_selectOp : (selectOp op idx a).idx = idx := by
  rcases opCode_cases op with rfl | rfl | rfl | rfl <;> rfl

@[simp] theorem a_selectOp : (selectOp op idx a).a = a := by
  rcases opCode_cases op with rfl | rfl | rfl | rfl <;> rfl

end selectOp

/-- The code and the operand fields of an operation select it again (R82). -/
theorem selectOp_op (i : Instr) : selectOp i.op i.idx i.a = i := by
  cases i <;> rfl

theorem wellFormed_iff (m : Nat) (i : Instr) :
    WellFormed m i = true ↔ i.idx.width = idxWidth m ∧ i.a.width = codeLen m := by
  simp [WellFormed]

theorem decodeRequest_encodeRequest {m : Nat} {i : Instr} (h : WellFormed m i = true) :
    decodeRequest m (encodeRequest m i) = .ok i := by
  obtain ⟨hidx, ha⟩ := (wellFormed_iff m i).1 h
  calc decodeRequest m (encodeRequest m i)
      = .ok (selectOp i.op (Word.of (i.idx.read (idxWidth m))) (Word.of (i.a.read (codeLen m)))) :=
        decodeRequest_pack ..
    _ = .ok (selectOp i.op i.idx i.a) := by rw [Word.of_read _ _ hidx, Word.of_read _ _ ha]
    _ = .ok i := by rw [selectOp_op]

/-- Settles O34: the decoder reads the three packed fields back, and they select the operation again. -/
theorem decodeOfEncodeIsTheOperation : Obligations.DecodeOfEncodeIsTheOperation :=
  fun _ _ => decodeRequest_encodeRequest

theorem decodeRequest_eq_ok_iff (m : Nat) (w : Word) (i : Instr) :
    decodeRequest m w = .ok i ↔ w.width = reqWidth m ∧
      selectOp (reqOp m w) (Word.of (reqIdx m w)) (Word.of (reqA m w)) = i := by
  unfold decodeRequest
  by_cases hw : w.width = reqWidth m <;> simp [hw]

/-- The three fields of a word of the port's width make up the word (R79). -/
theorem packRequest_fields {m : Nat} {w : Word} (hw : w.width = reqWidth m) :
    Word.of (packRequest m (reqOp m w) (reqIdx m w) (reqA m w)) = w := by
  obtain ⟨n, v⟩ := w
  obtain rfl : n = reqWidth m := hw
  refine (Word.of_inj _ v).2 (BitVec.eq_of_getLsbD_eq fun i hi => ?_)
  rw [getLsbD_packRequest, reqOp, reqIdx, reqA]
  unfold reqWidth at hi
  split_ifs with ha hidx
  · simp [ha]
  · rw [BitVec.getLsbD_extractLsb', decide_eq_true (by omega), Bool.true_and]
    congr 1
    omega
  · rw [BitVec.getLsbD_extractLsb', decide_eq_true (by omega), Bool.true_and]
    congr 1
    omega

/-- Settles O35: the selected operation has the code and the fields of the word, and these make up the
word. -/
theorem encodeOfDecodeIsTheWord : Obligations.EncodeOfDecodeIsTheWord := by
  refine ⟨fun m w i h => ?_, fun m w => ?_⟩
  · obtain ⟨hw, rfl⟩ := (decodeRequest_eq_ok_iff m w i).1 h
    refine ⟨by simp [wellFormed_iff], ?_⟩
    rw [encodeRequest, op_selectOp, idx_selectOp, a_selectOp, Word.read_of, Word.read_of,
      packRequest_fields hw]
  · simp [decodeRequest_eq_ok_iff, reqWidth]

/-- Settles O36: five words of the spec's programs, read by evaluation. -/
theorem wordsOfTheSpecDecode : Obligations.WordsOfTheSpecDecode :=
  ⟨rfl, rfl, rfl, rfl, rfl⟩

/-- A word with both bits of its code set asks for the reserved operation (R83). -/
theorem reqOp_eq_reserved {m : Nat} {w : Word} (hlow : w.bits.getLsbD (idxWidth m + codeLen m) = true)
    (hhigh : w.bits.getLsbD (idxWidth m + codeLen m + 1) = true) : reqOp m w = 0b11#2 := by
  refine BitVec.eq_of_getLsbD_eq fun i hi => ?_
  obtain rfl | rfl : i = 0 ∨ i = 1 := by omega
  · simpa [reqOp] using hlow
  · simpa [reqOp] using hhigh

/-- Settles O11: the reserved code always raises `InvalidInput`, and a word with both code bits set selects
it. -/
theorem reservedRequestAnswersInvalidInput : Obligations.ReservedRequestAnswersInvalidInput := by
  refine ⟨fun s idx a => ⟨_, rfl, ⟨_, rfl, rfl⟩, rfl⟩, fun m w hw hlow hhigh => ?_⟩
  refine ⟨Word.of (reqIdx m w), Word.of (reqA m w), (decodeRequest_eq_ok_iff ..).2 ⟨hw, ?_⟩⟩
  rw [reqOp_eq_reserved hlow hhigh]
  rfl

end Sys2Proof

/-! Everything a step can do, and the invariant every step keeps (R79, R195, R200). -/

namespace Sys2Proof.Machine

/-- The states a string-level call can leave. -/
inductive StringReturn (s : State) : State → Prop
  | data (u : List Char) : StringReturn s (returnData u s)
  | decoded (u : List Char) (st : Status) (k : Option Nat) : StringReturn s (returnDecoded u st k s)
  | error (e : CodecError) : StringReturn s (raise e s)

theorem callEncode_stringReturn (t : Option (List Char)) (d : Option Int) (s : State) :
    StringReturn s (callEncode t d s) := by
  obtain ⟨u, h⟩ | ⟨e, h⟩ := callEncode_cases t d s
  · exact h ▸ .data u
  · exact h ▸ .error e

theorem callDecode_stringReturn (t : Option (List Char)) (s : State) :
    StringReturn s (callDecode t s) := by
  obtain ⟨u, st, k, h⟩ | ⟨e, h⟩ := callDecode_cases t s
  · exact h ▸ .decoded u st k
  · exact h ▸ .error e

theorem callFlip_stringReturn (t : Option (List Char)) (k : Int) (s : State) :
    StringReturn s (callFlip t k s) := by
  obtain ⟨u, h⟩ | ⟨e, h⟩ := callFlip_cases t k s
  · exact h ▸ .data u
  · exact h ▸ .error e

/-- A string-level call touches neither the wrapper nor the caller's list. -/
theorem StringReturn.frame {s t : State} (h : StringReturn s t) :
    t.width = s.width ∧ t.calls = s.calls ∧ t.ports = s.ports ∧ t.freshCount = s.freshCount := by
  cases h <;> exact ⟨rfl, rfl, rfl, rfl⟩

/-- What a string-level call leaves in `cur` and `last`, by the kind of its reply (log entry 11). -/
theorem StringReturn.host {s t : State} (h : StringReturn s t) :
    (∀ e, t.reply = some (.error e) → t.cur = s.cur ∧ t.last = some (.error e)) ∧
    (∀ u, t.reply = some (.data u) → t.cur = u ∧ t.last = s.last) ∧
    (∀ u st k, t.reply = some (.decoded u st k) → t.cur = u ∧ t.last = some (.decoded st k)) := by
  cases h <;> simp

/-- The steps that answer a next state: nothing pending, a request that runs the operation its word decodes
to, a string-level call. -/
inductive StepTo (s : State) : State → Prop
  | idle (hc : s.calls = []) : StepTo s s
  | request {w : Word} {rest : List Call} {i : Instr} {t : State} (hc : s.calls = .request w :: rest)
      (hi : decodeRequest s.m w = .ok i) (hx : exec i { s with calls := rest } = .next t) : StepTo s t
  | string {c : Call} {rest : List Call} {t : State} (hc : s.calls = c :: rest)
      (hcall : ∀ w, c ≠ .request w) (hret : StringReturn { s with calls := rest } t) : StepTo s t

theorem step_idle {s : State} (h : s.calls = []) : step s = .next s := by
  unfold step
  rw [h]

theorem stepTo_of_step {s t : State} (h : step s = .next t) : StepTo s t := by
  cases hc : s.calls with
  | nil =>
    cases (step_idle hc).symm.trans h
    exact .idle hc
  | cons c rest =>
    cases c with
    | request w =>
      obtain ⟨i, hi, hx⟩ := runRequest_next ((step_request s w rest hc).symm.trans h)
      exact .request hc hi hx
    | encode u d =>
      cases (step_encode hc).symm.trans h
      exact .string hc (by simp) (callEncode_stringReturn ..)
    | decode u =>
      cases (step_decode hc).symm.trans h
      exact .string hc (by simp) (callDecode_stringReturn ..)
    | flip u k =>
      cases (step_flip hc).symm.trans h
      exact .string hc (by simp) (callFlip_stringReturn ..)

/-- An operation on the wrapper leaves the data width and the caller's other calls. -/
theorem exec_frame {i : Instr} {s t : State} (h : exec i s = .next t) :
    t.width = s.width ∧ t.calls = s.calls := by
  obtain ⟨-, y, hx⟩ | ⟨-, hx⟩ | ⟨-, -, y, hx⟩ | ⟨-, -, hx⟩ | ⟨-, hx⟩ := exec_cases i s <;>
    cases hx.symm.trans h <;> exact ⟨rfl, rfl⟩

theorem dataPorts_legal (m : Nat) (y : BitVec (codeLen m)) : (dataPorts m y).legal m = true := by
  simp [CorePorts.legal, dataPorts, noErrorCode]

theorem errorPorts_legal (m c : Nat) (e : CodecError) : (errorPorts m c e).legal m = true := by
  have herr : (e.code != noErrorCode) = true := bne_iff_ne.2 e.code_ne_noErrorCode
  simp [CorePorts.legal, errorPorts, herr, e.code_ne_unused]

/-- Where the decoder reports no position, it reports no string index either (R131). -/
theorem decodeVec_idx (m : Nat) (x : BitVec (codeLen m)) :
    (decodeVec m x).idx = (decodeVec m x).pos.map (sidx m) := rfl

/-- An absent position reads as zeros on the decoder's ports (R131). -/
theorem secdedDec_legal (m : Nat) (x : BitVec (codeLen m)) :
    (secdedDec m x).onWrapper.legal m = true := by
  cases hpos : (decodeVec m x).pos <;>
    simp [CorePorts.legal, DecPorts.onWrapper, secdedDec, Decoded.onPorts, noErrorCode, decodeVec_idx, hpos]

theorem exec_ports_legal {i : Instr} {s t : State} {o : CorePorts} (h : exec i s = .next t)
    (ho : t.ports = some o) : o.legal s.m = true := by
  obtain ⟨-, y, hx⟩ | ⟨-, hx⟩ | ⟨-, -, y, hx⟩ | ⟨-, -, hx⟩ | ⟨-, hx⟩ := exec_cases i s <;>
    cases hx.symm.trans h <;> cases ho
  · exact dataPorts_legal ..
  · exact secdedDec_legal ..
  · exact dataPorts_legal ..
  · exact errorPorts_legal ..
  · exact errorPorts_legal ..

theorem State.m_eq_of_width {s t : State} (h : t.width = s.width) : t.m = s.m :=
  congrArg DataWidth.bits h

/-- Taking a call off the caller's list keeps the invariant. -/
theorem StateInv.tail {s : State} {c : Call} {rest : List Call} (h : StateInv s)
    (hc : s.calls = c :: rest) : StateInv { s with calls := rest } := by
  obtain ⟨hcalls, hports⟩ := h
  exact ⟨fun d hd => hcalls d (hc ▸ List.mem_cons_of_mem c hd), hports⟩

/-- The invariant speaks of the data width, the pending calls and the ports alone. -/
theorem StateInv.of_frame {s t : State} (h : StateInv s) (hw : t.width = s.width)
    (hcalls : t.calls = s.calls) (hports : ∀ o, t.ports = some o → o.legal s.m = true) : StateInv t := by
  obtain ⟨hpres, -⟩ := h
  have hm : t.m = s.m := State.m_eq_of_width hw
  exact ⟨fun c hc => hm ▸ hpres c (hcalls ▸ hc), fun o ho => hm ▸ hports o ho⟩

theorem step_keeps_stateInv {s t : State} (h : StateInv s) (hstep : step s = .next t) : StateInv t := by
  cases stepTo_of_step hstep with
  | idle hc => exact h
  | request hc hi hx =>
    obtain ⟨hw, hcalls⟩ := exec_frame hx
    exact (h.tail hc).of_frame hw hcalls fun o => exec_ports_legal hx
  | string hc hcall hret =>
    obtain ⟨hw, hcalls, hports, -⟩ := hret.frame
    exact (h.tail hc).of_frame hw hcalls fun o ho => h.2 o (hports ▸ ho)

/-- Settles O43, by the kind of the step: an operation leaves legal ports, a string-level call leaves the
ports as they were, and neither adds a call. -/
theorem stepKeepsInvariant : Obligations.StepKeepsInvariant :=
  fun _ _ => step_keeps_stateInv

/-- Settles O44: nothing is pending and no ports were taken. -/
theorem resetMeetsInvariant : Obligations.ResetMeetsInvariant :=
  ⟨fun _ h => absurd h List.not_mem_nil, fun _ h => nomatch h⟩

/-- A step faults on a word of another width than the port's (R85). -/
theorem step_wrongWidth {s : State} {w : Word} {rest : List Call} (hc : s.calls = .request w :: rest)
    (hw : w.width ≠ reqWidth s.m) : step s = .fault .requestWidth :=
  (step_request s w rest hc).trans (runRequest_wrongWidth w _ hw)

/-- A step completes, unless the next call is a word that cannot be presented (R85, R200). -/
theorem step_completes_or_faults (s : State) :
    Safe s ∨ (step s = .fault .requestWidth ∧
      ∃ w rest, s.calls = .request w :: rest ∧ w.width ≠ reqWidth s.m) := by
  cases hc : s.calls with
  | nil => exact .inl ⟨s, step_idle hc⟩
  | cons c rest =>
    by_cases hpres : c.presentable s.m = true
    · obtain ⟨t, -, ht, -⟩ := everyCallReturns s c rest hc hpres
      exact .inl ⟨t, ht⟩
    · cases c with
      | request w =>
        have hw : w.width ≠ reqWidth s.m := fun hw => hpres (beq_iff_eq.2 hw)
        exact .inr ⟨step_wrongWidth hc hw, w, rest, rfl, hw⟩
      | encode u d => exact absurd rfl hpres
      | decode u => exact absurd rfl hpres
      | flip u k => exact absurd rfl hpres

theorem safe_of_stateInv {s : State} (h : StateInv s) : Safe s := by
  obtain hsafe | ⟨-, w, rest, hc, hw⟩ := step_completes_or_faults s
  · exact hsafe
  · obtain ⟨hpres, -⟩ := h
    exact absurd (beq_iff_eq.1 (hpres (.request w) (hc ▸ List.mem_cons_self))) hw

/-- Settles O46, by induction on the number of steps: a state of the invariant is safe, and its next state is
one of the invariant. -/
theorem everyRunCompletes : Obligations.EveryRunCompletes := by
  intro s k
  induction k generalizing s with
  | zero => exact fun h => ⟨s, rfl, h⟩
  | succ k ih =>
    intro h
    obtain ⟨t, ht⟩ := safe_of_stateInv h
    obtain ⟨u, hu, hinv⟩ := ih t (step_keeps_stateInv h ht)
    exact ⟨u, (run_next core k s t ht).trans hu, hinv⟩

/-- Settles O42: an idle step leaves the state, and a step that does not complete has met a word of another
width. -/
theorem stepStopsOnlyOnAnUnpresentableWord : Obligations.StepStopsOnlyOnAnUnpresentableWord := by
  refine ⟨fun s => step_idle, fun s f => ⟨fun h => ?_, ?_⟩, fun s r h => ?_⟩
  · obtain ⟨t, ht⟩ | ⟨hf, hword⟩ := step_completes_or_faults s
    · cases ht.symm.trans h
    · cases hf.symm.trans h
      exact ⟨rfl, hword⟩
  · rintro ⟨rfl, w, rest, hc, hw⟩
    exact step_wrongWidth hc hw
  · obtain ⟨t, ht⟩ | ⟨hf, -⟩ := step_completes_or_faults s
    · cases ht.symm.trans h
    · cases hf.symm.trans h

/-- Settles O49, by the kind of the step. -/
theorem dataWidthIsFixed : Obligations.DataWidthIsFixed := by
  intro s t h
  cases stepTo_of_step h with
  | idle hc => rfl
  | request hc hi hx => exact (exec_frame hx).1
  | string hc hcall hret => exact hret.frame.1

/-- Settles O47: the values of the reset state, as it is defined. -/
theorem resetHoldsNoResult : Obligations.ResetHoldsNoResult :=
  ⟨rfl, rfl, rfl, rfl, rfl, rfl⟩

/-- A request word that decodes runs its operation (R50). -/
theorem runRequest_of_decodeRequest {w : Word} {i : Instr} {s : State}
    (h : decodeRequest s.m w = .ok i) : runRequest w s = exec i s := by
  unfold runRequest
  rw [h]

theorem step_of_decodeRequest {s : State} {w : Word} {rest : List Call} {i : Instr}
    (hc : s.calls = .request w :: rest) (hi : decodeRequest s.m w = .ok i) :
    step s = exec i { s with calls := rest } :=
  (step_request s w rest hc).trans (runRequest_of_decodeRequest hi)

/-- Settles O39: a step hands the request to the dispatch with its call taken off the list. -/
theorem stepRunsTheDecodedRequest : Obligations.StepRunsTheDecodedRequest :=
  fun _ _ _ _ => step_of_decodeRequest

/-- Settles O40, by the round trip of the request word. -/
theorem stepRunsTheEncodedOperation : Obligations.StepRunsTheEncodedOperation :=
  fun _ _ _ hc hwf => step_of_decodeRequest hc (decodeRequest_encodeRequest hwf)

/-- Settles O41: the reply of each call is that of its function at the operands given, or at `cur` and the
data width. -/
theorem stepAnswersStringCalls : Obligations.StepAnswersStringCalls := by
  refine fun s rest str => ⟨fun w hc => ⟨_, step_encode hc, (callEncode_reply ..).trans ?_⟩,
    fun hc => ⟨_, step_decode hc, (callDecode_reply ..).trans ?_⟩,
    fun k hc => ⟨_, step_flip hc, (callFlip_reply ..).trans ?_⟩⟩
  · change some (dataReply (encodeStr (str.getD s.cur) (w.getD s.m))) = _
    cases encodeStr (str.getD s.cur) (w.getD s.m) <;> rfl
  · change some (decodedReply (decodeStr (str.getD s.cur))) = _
    cases decodeStr (str.getD s.cur) <;> rfl
  · change some (dataReply (flipStr (str.getD s.cur) k)) = _
    cases flipStr (str.getD s.cur) k <;> rfl

/-! What a call leaves unchanged, and what it leaves with the host (R28, R172, D20). -/

/-- Settles O14, by the result of the operation: the two errors do not read as success. -/
theorem successfulRequestFrame : Obligations.SuccessfulRequestFrame := by
  intro s t i o h ho herr
  obtain ⟨-, y, hx⟩ | ⟨hi, hx⟩ | ⟨-, -, y, hx⟩ | ⟨-, -, hx⟩ | ⟨-, hx⟩ := exec_cases i s <;>
    cases hx.symm.trans h <;> cases ho
  · exact ⟨rfl, rfl, rfl, fun _ => rfl⟩
  · exact ⟨rfl, rfl, rfl, by rw [hi]; simp⟩
  · exact ⟨rfl, rfl, rfl, fun _ => rfl⟩
  · exact absurd herr (errorPorts_err_ne_noErrorCode _ _ _)
  · exact absurd herr (errorPorts_err_ne_noErrorCode _ _ _)

/-- Settles O15, by the result of the operation: only the two errors do not read as success. -/
theorem failedRequestFrame : Obligations.FailedRequestFrame := by
  intro s t i o h ho herr
  obtain ⟨-, y, hx⟩ | ⟨-, hx⟩ | ⟨-, -, y, hx⟩ | ⟨-, -, hx⟩ | ⟨-, hx⟩ := exec_cases i s <;>
    cases hx.symm.trans h <;> cases ho
  · exact absurd rfl herr
  · exact absurd rfl herr
  · exact absurd rfl herr
  · exact ⟨rfl, rfl, rfl, _, rfl, rfl, rfl⟩
  · exact ⟨rfl, rfl, rfl, _, rfl, rfl, rfl⟩

/-- Settles O16, by the result of the operation: data, a decoding, or an error. -/
theorem hostStateAfterRequest : Obligations.HostStateAfterRequest := by
  intro s t i h
  obtain ⟨-, y, hx⟩ | ⟨-, hx⟩ | ⟨-, -, y, hx⟩ | ⟨-, -, hx⟩ | ⟨-, hx⟩ := exec_cases i s <;>
    cases hx.symm.trans h <;> simp

/-- Settles O17, by the kind of the step: only a string-level call is left. -/
theorem stringCallFrame : Obligations.StringCallFrame := by
  intro s t c rest hc hcall h
  cases stepTo_of_step h with
  | idle hnil => simp [hnil] at hc
  | @request w _ _ _ hreq =>
    cases hreq.symm.trans hc
    exact absurd rfl (hcall w)
  | string hstr _ hret =>
    cases hstr.symm.trans hc
    obtain ⟨hw, hcalls, hports, hfresh⟩ := hret.frame
    exact ⟨hw, hcalls, hports, hfresh, hret.host⟩

end Sys2Proof.Machine

/-! The parity width in closed form (R60), the sizes it bounds (R61), the lengths that are valid (R62). -/

namespace Sys2Proof.Machine

/-- Once `2 ^ r` fits `m`, every larger width does. -/
theorem fits_of_le {m i j : Nat} (hi : m + i + 1 ≤ 2 ^ i) (hij : i ≤ j) : m + j + 1 ≤ 2 ^ j := by
  induction j, hij using Nat.le_induction with
  | base => exact hi
  | succ j _ ih =>
    rw [Nat.pow_succ]
    omega

theorem rpar_le {m r : Nat} (h : m + r + 1 ≤ 2 ^ r) : rpar m ≤ r := by
  by_contra hlt
  have hleast : 2 ^ r < m + r + 1 := (rpar_isLeast m).2 r (not_le.1 hlt)
  omega

/-- The bounds of R60 that fix the parity width. -/
theorem rpar_eq_iff {m r : Nat} (hr : 1 ≤ r) :
    rpar m = r ↔ 2 ^ (r - 1) < m + r ∧ m + r + 1 ≤ 2 ^ r := by
  obtain ⟨hfits, hleast⟩ := rpar_isLeast m
  constructor
  · rintro rfl
    have hbelow : 2 ^ (rpar m - 1) < m + (rpar m - 1) + 1 := hleast _ (by omega)
    exact ⟨by omega, hfits⟩
  · rintro ⟨hlow, hhigh⟩
    refine le_antisymm (rpar_le hhigh) (not_lt.1 fun hlt => ?_)
    have hbelow : m + (r - 1) + 1 ≤ 2 ^ (r - 1) := fits_of_le hfits (by omega)
    omega

/-- Settles O1: the least width by the search of R60, its closed form, and each row of table 30-1 by that
form. -/
theorem parityWidthIsLeast : Obligations.ParityWidthIsLeast := by
  refine ⟨fun m => ⟨(rpar_isLeast m).1, fun r => rpar_le⟩, fun m r => rpar_eq_iff, by decide, by decide,
    by decide, by decide, by decide, ?_, ?_, ?_, ?_, ?_, ?_⟩ <;>
  exact fun m hlow hhigh => (rpar_eq_iff (by decide)).2 ⟨by omega, by omega⟩

theorem rpar_mono {m m' : Nat} (h : m ≤ m') : rpar m ≤ rpar m' := by
  have hfits := (rpar_isLeast m').1
  exact rpar_le (by omega)

theorem two_le_rpar {m : Nat} (hm : 1 ≤ m) : 2 ≤ rpar m := calc
  2 = rpar 1 := by decide
  _ ≤ rpar m := rpar_mono hm

theorem numPositions_mono {m m' : Nat} (h : m ≤ m') : numPositions m ≤ numPositions m' :=
  Nat.add_le_add h (rpar_mono h)

/-- The last position is above the last parity position (R61). -/
theorem two_pow_lt_numPositions {m : Nat} (hm : 1 ≤ m) : 2 ^ (rpar m - 1) < numPositions m :=
  ((rpar_eq_iff (Nat.one_le_of_lt (two_le_rpar hm))).1 rfl).1

/-- A number strictly between two neighbouring powers of two is none itself. -/
theorem isPow2_eq_false_of_between {n r : Nat} (hlow : 2 ^ (r - 1) < n) (hhigh : n < 2 ^ r) :
    isPow2 n = false := by
  rw [Bool.eq_false_iff, ne_eq, isPow2_iff]
  rintro ⟨k, rfl⟩
  have hlow' : r - 1 < k := (Nat.pow_lt_pow_iff_right Nat.one_lt_two).1 hlow
  have hhigh' : k < r := (Nat.pow_lt_pow_iff_right Nat.one_lt_two).1 hhigh
  omega

theorem isPow2_numPositions {m : Nat} (hm : 1 ≤ m) : isPow2 (numPositions m) = false :=
  isPow2_eq_false_of_between (two_pow_lt_numPositions hm) (numPositions_lt_two_pow m)

/-- Settles O2: the last position lies strictly between the last parity position and `2 ^ R`. -/
theorem derivedSizesAreBounded : Obligations.DerivedSizesAreBounded := fun m hm =>
  ⟨rfl, rfl, two_pow_lt_numPositions hm, numPositions_lt_two_pow m,
    fun _ hi => ⟨Nat.one_le_two_pow, two_pow_le_numPositions hi⟩, isPow2_numPositions hm,
    bitlen_numPositions m⟩

theorem lenParams_eq_some_iff (len m r : Nat) :
    lenParams len = some (m, r) ↔ 1 ≤ m ∧ rpar m = r ∧ m + r + 1 = len := by
  constructor
  · intro h
    obtain ⟨hm, rfl, hlen⟩ := lenParams_eq_some h
    exact ⟨hm, rfl, hlen⟩
  · rintro ⟨hm, rfl, rfl⟩
    exact lenParams_codeLen hm

theorem ne_two_pow {p : Nat} (hp : isPow2 p = false) (k : Nat) : p ≠ 2 ^ k := fun h =>
  Bool.eq_false_iff.1 hp ((isPow2_iff p).2 ⟨k, h⟩)

/-- A number that is no power of two has as many bits as the number below it. -/
theorem bitlen_pred {p : Nat} (hp : isPow2 p = false) : bitlen (p - 1) = bitlen p := by
  refine eq_of_forall_lt_iff fun k => ?_
  have hne : p ≠ 2 ^ k := ne_two_pow hp k
  rw [lt_bitlen, lt_bitlen]
  omega

theorem lt_two_pow_pred {n : Nat} (hn : 3 ≤ n) : n < 2 ^ (n - 1) := by
  induction n, hn using Nat.le_induction with
  | base => decide
  | succ n hn ih =>
    rw [Nat.add_sub_cancel, ← Nat.sub_add_cancel (Nat.one_le_of_lt hn), Nat.pow_succ]
    omega

/-- A number of positions from three on that is no power of two belongs to the data width that is left
beside its bit length (R62). -/
theorem rpar_sub_bitlen {n : Nat} (hn : 3 ≤ n) (hpow : isPow2 n = false) :
    bitlen n < n ∧ rpar (n - bitlen n) = bitlen n := by
  have hpos : 0 < bitlen n := (lt_bitlen 0 n).2 (by omega)
  have hle : bitlen n ≤ n - 1 := (bitlen_le ..).2 (lt_two_pow_pred hn)
  have hlow : 2 ^ (bitlen n - 1) ≤ n := (lt_bitlen ..).1 (by omega)
  have hne : n ≠ 2 ^ (bitlen n - 1) := ne_two_pow hpow _
  have hhigh : n < 2 ^ bitlen n := (bitlen_le ..).1 le_rfl
  exact ⟨by omega, (rpar_eq_iff hpos).2 ⟨by omega, by omega⟩⟩

/-- The closed form of R62. -/
theorem lenParams_eq_ite (len : Nat) : lenParams len =
    if 3 ≤ len - 1 ∧ isPow2 (len - 1) = false then some (len - 1 - bitlen (len - 1), bitlen (len - 1))
    else none := by
  split
  next h =>
    obtain ⟨hn, hpow⟩ := h
    obtain ⟨hlt, hrpar⟩ := rpar_sub_bitlen hn hpow
    exact (lenParams_eq_some_iff ..).2 ⟨by omega, hrpar, by omega⟩
  next h =>
    refine (lenParams_eq_none_iff len).2 fun m hm hlen => h ?_
    rw [← hlen, Nat.add_sub_cancel]
    exact ⟨Nat.add_le_add hm (two_le_rpar hm), isPow2_numPositions hm⟩

/-- Settles O3: the pair of a length is that of the one instance with that number of positions. -/
theorem codewordLengthGivesWidths : Obligations.CodewordLengthGivesWidths := by
  refine ⟨lenParams_eq_some_iff, fun n r r' hr hrpar hr' hrpar' => ?_, lenParams_eq_ite, ?_⟩
  · have hsame : numPositions (n - r) = numPositions (n - r') := by
      unfold numPositions
      omega
    have := numPositions_injective hsame
    omega
  · decide

end Sys2Proof.Machine

/-! The data positions in their order (R63, R64), and the cover sets (R65). -/

namespace Sys2Proof.Machine

theorem dataPositions_pairwise_lt (m : Nat) : (dataPositions m).Pairwise (· < ·) :=
  (List.pairwise_lt_range' ..).filter _

theorem dpos_lt_dpos {m i j : Nat} (hij : i < j) (hj : j < m) : dpos m i < dpos m j := by
  have hi : i < m := hij.trans hj
  obtain ⟨hi', hpi⟩ := List.getElem?_eq_some_iff.1 (getElem?_dataPositions hi)
  obtain ⟨hj', hpj⟩ := List.getElem?_eq_some_iff.1 (getElem?_dataPositions hj)
  rw [← hpi, ← hpj]
  exact List.pairwise_iff_getElem.1 (dataPositions_pairwise_lt m) i j hi' hj' hij

/-- `didx` numbers the data positions the way `dpos` lists them (R64). -/
theorem dpos_didx {m p : Nat} (hp : p ∈ dataPositions m) : didx p < m ∧ dpos m (didx p) = p := by
  obtain ⟨j, hj⟩ := List.mem_iff_getElem?.1 hp
  have hjm : j < m := by simpa using (List.getElem?_eq_some_iff.1 hj).1
  obtain rfl : dpos m j = p := Option.some.inj ((getElem?_dataPositions hjm).symm.trans hj)
  rw [didx_dpos hjm]
  exact ⟨hjm, rfl⟩

/-- The closed form of R64: below a data position stand the powers of two of its bit length. -/
theorem didx_eq_sub_bitlen {p : Nat} (hp : 1 ≤ p) (hpow : isPow2 p = false) :
    didx p = p - 1 - bitlen p := by
  have hcount := didx_succ_add_bitlen (p - 1)
  rw [bitlen_pred hpow, Nat.sub_add_cancel hp] at hcount
  omega

/-- A data position of an instance is one of every wider instance. -/
theorem dpos_eq_of_le {m m' j : Nat} (hm : m ≤ m') (hj : j < m) : dpos m j = dpos m' j := by
  obtain ⟨⟨hpos, hle⟩, hpow⟩ := (mem_dataPositions ..).1 (dpos_mem hj)
  have hmem : dpos m j ∈ dataPositions m' :=
    (mem_dataPositions ..).2 ⟨⟨hpos, hle.trans (numPositions_mono hm)⟩, hpow⟩
  have hinv := (dpos_didx hmem).2
  rw [didx_dpos hj] at hinv
  exact hinv.symm

theorem numPositions_mem_dataPositions {m : Nat} (hm : 1 ≤ m) : numPositions m ∈ dataPositions m :=
  (mem_dataPositions ..).2 ⟨⟨by unfold numPositions; omega, le_rfl⟩, isPow2_numPositions hm⟩

/-- The last data position is the last position. -/
theorem dpos_last {m : Nat} (hm : 1 ≤ m) : dpos m (m - 1) = numPositions m := by
  have hlast : didx (numPositions m) = m - 1 := by
    rw [didx_eq_sub_bitlen (by unfold numPositions; omega) (isPow2_numPositions hm), bitlen_numPositions]
    unfold numPositions
    omega
  rw [← hlast, (dpos_didx (numPositions_mem_dataPositions hm)).2]

/-- Settles O4: `dpos` lists the data positions in increasing order, `didx` counts them back, and more data
bits only add positions at the end. -/
theorem dataPositionsAreNumberedInOrder : Obligations.DataPositionsAreNumberedInOrder := by
  refine ⟨fun m hm => ⟨length_dataPositions m, ?_, fun j hj => ?_, fun i j => dpos_lt_dpos,
    fun p hp hle hpow => ?_, dpos_last hm⟩, fun m m' j hj hj' => ?_, fun m hm => ?_⟩
  · exact (length_filter_isPow2 _).trans (bitlen_numPositions m)
  · obtain ⟨⟨hpos, hle⟩, hpow⟩ := (mem_dataPositions ..).1 (dpos_mem hj)
    exact ⟨hpos, hle, hpow, didx_dpos hj⟩
  · obtain ⟨hlt, hinv⟩ := dpos_didx ((mem_dataPositions ..).2 ⟨⟨hp, hle⟩, hpow⟩)
    exact ⟨hlt, hinv, didx_eq_sub_bitlen hp hpow⟩
  · obtain hle | hle := le_total m m'
    · exact dpos_eq_of_le hle hj
    · exact (dpos_eq_of_le hle hj').symm
  · have hfive : ∀ j < 5, dpos m j = dpos 5 j := fun j hj => (dpos_eq_of_le hm hj).symm
    simp (disch := decide) only [hfive]
    decide

/-- Table 30-3: the cover sets of the instance with eight data bits. -/
theorem cover_eight :
    cover 8 0 = [1, 3, 5, 7, 9, 11] ∧ cover 8 1 = [2, 3, 6, 7, 10, 11] ∧ cover 8 2 = [4, 5, 6, 7, 12] ∧
      cover 8 3 = [8, 9, 10, 11, 12] := by
  decide

/-- Settles O5: membership by the index bit, which among the powers of two only `2 ^ i` has. -/
theorem coverSetsAreTheIndexBits : Obligations.CoverSetsAreTheIndexBits := by
  refine ⟨fun m i p _ hi => ⟨?_, two_pow_mem_cover (two_pow_le_numPositions hi),
    isPow2_eq_false_of_mem_cover, ?_⟩, cover_eight⟩
  · rw [mem_cover, and_assoc]
  · simp

/-- Settles O10: the injector unit by its range test; its index port has the bits of `n`. -/
theorem injectorUnitPorts : Obligations.InjectorUnitPorts := by
  refine fun n c v k => ⟨fun hk => ?_, fun hk => ?_, Nat.mod_eq_of_lt ((bitlen_le ..).1 le_rfl)⟩
  · rw [secdedFlip_inRange c v k hk]
    refine ⟨rfl, fun b hb => ?_⟩
    have hplace : b + k.toNat + 1 = n ↔ b = vecIndex n k.toNat := by
      unfold vecIndex
      omega
    simp only [hplace, getLsbD_toggle_of_lt v _ hb]
  · rw [secdedFlip_outOfRange c v k hk]
    rfl

end Sys2Proof.Machine

/-! The code (R108): the encoder is linear and keeps the message; its words are clean for the decoder. -/

namespace Sys2Proof.Machine

theorem placeData_xor (m : Nat) (d d' : BitVec m) :
    placeData m (d ^^^ d') = placeData m d ^^^ placeData m d' :=
  BitVec.eq_of_getLsbD_eq fun p hp => by simp [placeData, Bool.and_xor_distrib_left]

theorem addParity_xor (m : Nat) (c c' : BitVec (codeLen m)) :
    addParity m (c ^^^ c') = addParity m c ^^^ addParity m c' := by
  refine BitVec.eq_of_getLsbD_eq fun p hp => ?_
  cases hpow : isPow2 p <;> simp [addParity, hp, hpow, xorOver_getLsbD_xor]

theorem addOverall_xor (m : Nat) (c c' : BitVec (codeLen m)) :
    addOverall m (c ^^^ c') = addOverall m c ^^^ addOverall m c' := by
  refine BitVec.eq_of_getLsbD_eq fun p hp => ?_
  by_cases hzero : p = 0 <;> simp [addOverall, hp, hzero, lt_codeLen, xorOver_getLsbD_xor]

/-- Each of the encoder's loops is linear (R108). -/
theorem encodeVec_xor (m : Nat) (d d' : BitVec m) :
    encodeVec m (d ^^^ d') = encodeVec m d ^^^ encodeVec m d' := by
  rw [encodeVec, placeData_xor, addParity_xor, addOverall_xor, encodeVec, encodeVec]

theorem encodeVec_injective {m : Nat} {d d' : BitVec m} (h : encodeVec m d = encodeVec m d') : d = d' := by
  refine BitVec.eq_of_getLsbD_eq fun b hb => ?_
  have hplace : m - 1 - (m - 1 - b) = b := by omega
  have hj : m - 1 - b < m := by omega
  rw [← hplace, ← getLsbD_encodeVec_dpos d hj, ← getLsbD_encodeVec_dpos d' hj, h]

theorem syndrome_xor (m : Nat) {n : Nat} (x y : BitVec n) :
    syndrome m (x ^^^ y) = syndrome m x ^^^ syndrome m y :=
  Nat.eq_of_testBit_eq fun i => by simp [testBit_syndrome, parityCheck, xorOver_getLsbD_xor]

section codeword
variable {m : Nat} (d : BitVec m)

theorem syndrome_encodeVec : syndrome m (encodeVec m d) = 0 := by
  rw [← syndrome_encodeVec_xor d (encodeVec m d), syndrome_xor, Nat.xor_self]

theorem parityMismatch_encodeVec : parityMismatch m (encodeVec m d) = false := by
  rw [parityMismatch_eq_xorOver, xorOver_range_of_isCodewordOf (encodeVec_isCodewordOf m d)]

/-- A codeword is decoded as it is (R108). -/
theorem decodeVec_encodeVec : (decodeVec m (encodeVec m d)).status = .noError ∧
    (decodeVec m (encodeVec m d)).y = encodeVec m d ∧ (decodeVec m (encodeVec m d)).pos = none := by
  obtain ⟨hclean, -⟩ := decodeVec_classifiedAs m (encodeVec m d)
  exact hclean (syndrome_encodeVec d) (parityMismatch_encodeVec d)

end codeword

/-- Settles O18: the loops of the encoder are linear and keep the message; the checks of a codeword are
even. -/
theorem encoderLaws : Obligations.EncoderLaws := by
  refine fun m _ => ⟨fun d _ => getLsbD_encodeVec_dpos d, encodeVec_xor m, encodeVec_zero m,
    fun d _ => xorOver_cover_of_isCodewordOf (encodeVec_isCodewordOf m d), fun d => ?_,
    fun d => ⟨syndrome_encodeVec d, parityMismatch_encodeVec d, (decodeVec_encodeVec d).1⟩,
    fun _ _ => encodeVec_injective⟩
  obtain ⟨-, -, hoverall⟩ := encodeVec_isCodewordOf m d
  rw [← hoverall, Bool.xor_self]

/-- Settles O19: both checks are linear and clean on the codeword, which leaves them to the error vector. -/
theorem syndromeNamesTheErrorVector : Obligations.SyndromeNamesTheErrorVector := fun m _ d e =>
  ⟨(syndrome_encodeVec_xor d e).trans (syndrome_eq_foldr_xor m e), parityMismatch_encodeVec_xor d e⟩

end Sys2Proof.Machine

/-! What one inverted bit does to the decoder's checks, and the decoder after one and two flips (R137,
R156). -/

namespace Sys2Proof.Machine

/-- Inverting bit `p` inverts the exclusive-or over the sets that hold `p`. -/
theorem xorOver_toggle {ps : List Nat} {n p : Nat} (hn : ps.Nodup) (hp : p < n) (x : BitVec n) :
    xorOver ps (toggle x p).getLsbD = (xorOver ps x.getLsbD ^^ decide (p ∈ ps)) := by
  rw [toggle, xorOver_getLsbD_xor, ← xorOver_single ps p hn]
  congr 1
  refine xorOver_congr _ _ _ fun q _ => ?_
  rw [BitVec.getLsbD_twoPow]
  by_cases hqp : q = p
  · simp [hqp, hp]
  · simp [hqp, Ne.symm hqp]

section toggle
variable {m p : Nat} (hp : p ≤ numPositions m) (x : BitVec (codeLen m))
include hp

/-- Inverting bit `p` adds `p` to the syndrome; the overall parity bit adds nothing (R136). -/
theorem syndrome_toggle : syndrome m (toggle x p) = syndrome m x ^^^ p := by
  refine Nat.eq_of_testBit_eq fun i => ?_
  have hmem : decide (p ∈ cover m i) = p.testBit i := by
    rcases p.eq_zero_or_pos with rfl | hpos
    · simp
    · simp [hp, Nat.one_le_of_lt hpos]
  rw [testBit_syndrome, parityCheck, xorOver_toggle (cover_nodup m i) ((lt_codeLen m p).2 hp), hmem,
    Nat.testBit_xor, testBit_syndrome, parityCheck]

/-- Inverting any bit inverts the mismatch (R136). -/
theorem parityMismatch_toggle : parityMismatch m (toggle x p) = !parityMismatch m x := by
  have hlt : p < codeLen m := (lt_codeLen m p).2 hp
  rw [parityMismatch_eq_xorOver, xorOver_toggle List.nodup_range hlt, parityMismatch_eq_xorOver]
  simp [hlt]

end toggle

section flips
variable {m : Nat} (d : BitVec m)

/-- A flip at a numbered position is corrected (R137). -/
theorem decodeVec_one_flip {p : Nat} (hpos : 1 ≤ p) (hp : p ≤ numPositions m) :
    (decodeVec m (toggle (encodeVec m d) p)).y = encodeVec m d ∧
      (decodeVec m (toggle (encodeVec m d) p)).status = .singleBitCorrected ∧
      (decodeVec m (toggle (encodeVec m d) p)).pos = some p := by
  have hsyn : syndrome m (toggle (encodeVec m d) p) = p := by
    rw [syndrome_toggle hp, syndrome_encodeVec, Nat.zero_xor]
  have hmm : parityMismatch m (toggle (encodeVec m d) p) = true := by
    rw [parityMismatch_toggle hp, parityMismatch_encodeVec, Bool.not_false]
  have hst : (decodeVec m (toggle (encodeVec m d) p)).status = .singleBitCorrected :=
    (classify_eq_singleBitCorrected_iff ..).2 ⟨by omega, hmm, by omega⟩
  have hdec := decodeVec_of_singleBitCorrected hst
  rw [hsyn, toggle_toggle] at hdec
  exact ⟨hdec.1, hst, hdec.2⟩

/-- A flip of the overall parity bit leaves the syndrome at zero (R137). -/
theorem decodeVec_overall_flip :
    (decodeVec m (toggle (encodeVec m d) 0)).status = .doubleErrorDetected ∧
      (decodeVec m (toggle (encodeVec m d) 0)).y = toggle (encodeVec m d) 0 ∧
      (decodeVec m (toggle (encodeVec m d) 0)).pos = none := by
  obtain ⟨-, -, -, hoverall, -⟩ := decodeVec_classifiedAs m (toggle (encodeVec m d) 0)
  refine hoverall ?_ ?_
  · rw [syndrome_toggle (Nat.zero_le _), syndrome_encodeVec, Nat.zero_xor]
  · rw [parityMismatch_toggle (Nat.zero_le _), parityMismatch_encodeVec, Bool.not_false]

/-- Two flips cancel in the mismatch but not in the syndrome (R137). -/
theorem decodeVec_two_flips {p q : Nat} (hp : p ≤ numPositions m) (hq : q ≤ numPositions m)
    (hne : p ≠ q) :
    (decodeVec m (toggle (toggle (encodeVec m d) p) q)).status = .unresolvable ∧
      (decodeVec m (toggle (toggle (encodeVec m d) p) q)).y = toggle (toggle (encodeVec m d) p) q ∧
      (decodeVec m (toggle (toggle (encodeVec m d) p) q)).pos = none := by
  obtain ⟨-, -, -, -, hdouble⟩ := decodeVec_classifiedAs m (toggle (toggle (encodeVec m d) p) q)
  refine hdouble ?_ ?_
  · rw [syndrome_toggle hq, syndrome_toggle hp, syndrome_encodeVec, Nat.zero_xor]
    exact fun h => hne (Nat.xor_eq_zero_iff.1 h)
  · rw [parityMismatch_toggle hq, parityMismatch_toggle hp, parityMismatch_encodeVec]
    rfl

end flips

/-- The flip of a codeword's string index inverts the bit at its Hamming position (R68, R150). -/
theorem flipVec_codeword {m k : Nat} (x : BitVec (codeLen m)) (hk : k < codeLen m) :
    flipVec x k = .ok (toggle x (hpos m k)) :=
  flipVec_inRange x hk

theorem hpos_le (m k : Nat) : hpos m k ≤ numPositions m := Nat.sub_le ..

theorem sidx_hpos {m k : Nat} (hk : k ≤ numPositions m) : sidx m (hpos m k) = k := Nat.sub_sub_self hk

/-- The last string index is that of the overall parity bit (R68). -/
theorem hpos_numPositions (m : Nat) : hpos m (numPositions m) = 0 := Nat.sub_self _

theorem hpos_ne {m j k : Nat} (hj : j < codeLen m) (hk : k < codeLen m) (hne : j ≠ k) :
    hpos m j ≠ hpos m k :=
  fun h => hne ((vecIndex_inj hj hk).1 h)

/-- A flip at string index `k` of a numbered position is corrected, and reported as `k` (R156). -/
theorem decodeVec_index_flip {m k : Nat} (d : BitVec m) (hk : k + 1 ≤ numPositions m) :
    (decodeVec m (toggle (encodeVec m d) (hpos m k))).y = encodeVec m d ∧
      (decodeVec m (toggle (encodeVec m d) (hpos m k))).status = .singleBitCorrected ∧
      (decodeVec m (toggle (encodeVec m d) (hpos m k))).pos = some (hpos m k) ∧
      (decodeVec m (toggle (encodeVec m d) (hpos m k))).idx = some k := by
  have hone : 1 ≤ hpos m k := Nat.le_sub_of_add_le' hk
  obtain ⟨hy, hst, hp⟩ := decodeVec_one_flip d hone (hpos_le m k)
  refine ⟨hy, hst, hp, ?_⟩
  rw [decodeVec_idx, hp, Option.map_some, sidx_hpos (Nat.le_of_succ_le hk)]

/-- A word without a reported position has no reported string index (R131). -/
theorem decodeVec_idx_eq_none {m : Nat} {x : BitVec (codeLen m)} (h : (decodeVec m x).pos = none) :
    (decodeVec m x).idx = none := by
  rw [decodeVec_idx, h, Option.map_none]

/-- Settles O20: string index `k` is position `N - k`, and the decoder's checks say which positions were
inverted. -/
theorem decodingAfterFlips : Obligations.DecodingAfterFlips := by
  refine fun m _ d => ⟨fun k hk => ?_, ?_, fun k j hk hj hne => ?_⟩
  · have hlt : k < codeLen m := (lt_codeLen m k).2 (Nat.le_of_succ_le hk)
    exact ⟨_, flipVec_codeword _ hlt, decodeVec_index_flip d hk⟩
  · obtain ⟨hst, hy, hpos⟩ := decodeVec_overall_flip d
    refine ⟨_, flipVec_codeword _ ((lt_codeLen m _).2 le_rfl), ?_⟩
    rw [hpos_numPositions]
    exact ⟨hy, hst, hpos, decodeVec_idx_eq_none hpos⟩
  · exact ⟨_, _, flipVec_codeword _ hk, flipVec_codeword _ hj,
      decodeVec_two_flips d (hpos_le m k) (hpos_le m j) (hpos_ne hk hj hne)⟩

end Sys2Proof.Machine

/-! The injector's laws (R155), and the error vectors by their weight (R137, R139). -/

namespace Sys2Proof.Machine

theorem toggle_comm {n : Nat} (v : BitVec n) (p q : Nat) :
    toggle (toggle v p) q = toggle (toggle v q) p := by
  rw [toggle, toggle, toggle, toggle, BitVec.xor_assoc, BitVec.xor_comm (BitVec.twoPow n p),
    BitVec.xor_assoc]

theorem weight_zero (n : Nat) : Spec.weight 0#n = 0 := by
  simp [Spec.weight]

/-- Inverting a zero adds a one. -/
theorem weight_toggle_of_eq_false {n p : Nat} {v : BitVec n} (hp : p < n) (hv : v.getLsbD p = false) :
    Spec.weight (toggle v p) = Spec.weight v + 1 := by
  have hperm : ((List.range n).filter (toggle v p).getLsbD).Perm
      (p :: (List.range n).filter v.getLsbD) := by
    refine (List.perm_ext_iff_of_nodup (List.nodup_range.filter _)
      (List.nodup_cons.2 ⟨by simp [hv], List.nodup_range.filter _⟩)).2 fun q => ?_
    by_cases hq : q = p
    · simp [hq, hp, hv, getLsbD_toggle]
    · simp [hq, getLsbD_toggle]
  simpa [Spec.weight] using hperm.length_eq

/-- A word and the word with one bit inverted differ in that bit. -/
theorem toggle_xor_self {n : Nat} (v : BitVec n) (p : Nat) : toggle v p ^^^ v = BitVec.twoPow n p := by
  rw [toggle, BitVec.xor_comm v, BitVec.xor_assoc, BitVec.xor_self, BitVec.xor_zero]

theorem weight_twoPow {n p : Nat} (hp : p < n) : Spec.weight (BitVec.twoPow n p) = 1 := by
  have h := weight_toggle_of_eq_false (v := 0#n) hp (by simp)
  rwa [toggle, BitVec.zero_xor, weight_zero] at h

theorem toggle_ne_self {n p : Nat} (hp : p < n) (v : BitVec n) : toggle v p ≠ v := by
  intro h
  have hone := weight_twoPow hp
  rw [← toggle_xor_self v p, h, BitVec.xor_self, weight_zero] at hone
  cases hone

/-- Settles O24: a flip is the exclusive-or with one unit vector. -/
theorem flipLaws : Obligations.FlipLaws := by
  intro n v k j hk hj
  refine ⟨⟨_, flipVec_inRange v hk, ?_, toggle_ne_self (vecIndex_lt hk) v, ?_, rfl⟩,
    _, _, _, flipVec_inRange v hk, flipVec_inRange _ hj, flipVec_inRange v hj, ?_⟩
  · rw [flipVec_inRange _ hk, toggle_toggle]
  · rw [toggle_xor_self, weight_twoPow (vecIndex_lt hk)]
  · rw [flipVec_inRange _ hk, toggle_comm]

/-- Only one row of the table reports no error (R127). -/
theorem classify_eq_noError_iff (m syn : Nat) (mm : Bool) :
    classify m syn mm = .noError ↔ syn = 0 ∧ mm = false := by
  unfold classify
  by_cases hsyn : syn = 0
  · cases mm <;> simp [hsyn]
  · by_cases hle : syn ≤ numPositions m <;> cases mm <;> simp [hsyn, hle]

/-- A word that the decoder corrected or found clean is returned clean (R139). -/
theorem decodeVec_y_clean {m : Nat} {x : BitVec (codeLen m)}
    (h : (decodeVec m x).status = .singleBitCorrected ∨ (decodeVec m x).status = .noError) :
    syndrome m (decodeVec m x).y = 0 ∧ parityMismatch m (decodeVec m x).y = false := by
  rcases h with hst | hst
  · obtain ⟨hy, -⟩ := decodeVec_of_singleBitCorrected hst
    obtain ⟨-, hmm, hle⟩ := (classify_eq_singleBitCorrected_iff ..).1 hst
    rw [hy, syndrome_toggle hle, parityMismatch_toggle hle, hmm]
    exact ⟨Nat.xor_self _, rfl⟩
  · obtain ⟨hy, -⟩ := decodeVec_of_ne_singleBitCorrected (x := x) (by simp [hst])
    rw [hy]
    exact (classify_eq_noError_iff ..).1 hst

/-- Settles O22: what the decoder returns is clean if it corrected the word or found it clean, and is the
word otherwise. -/
theorem decodingIsIdempotent : Obligations.DecodingIsIdempotent := by
  refine fun m _ x => ⟨fun hst => ?_, fun hst => ?_⟩
  · obtain ⟨hsyn, hmm⟩ := decodeVec_y_clean hst
    obtain ⟨hclean, -⟩ := decodeVec_classifiedAs m (decodeVec m x).y
    obtain ⟨hst', hy, hpos⟩ := hclean hsyn hmm
    exact ⟨hy, hst', hpos⟩
  · have hne : (decodeVec m x).status ≠ .singleBitCorrected := by
      rcases hst with hst | hst <;> simp [hst]
    obtain ⟨hy, -⟩ := decodeVec_of_ne_singleBitCorrected hne
    exact ⟨hy, congrArg (decodeVec m) hy⟩

end Sys2Proof.Machine

/-! Error vectors of weight three (R137): a miscorrection adds a fourth wrong bit. -/

namespace Sys2Proof.Machine

/-- The overall parity bit, at position `0`, adds nothing to the syndrome. -/
theorem syndrome_eq_foldr_xor_range (m : Nat) {n : Nat} (x : BitVec n) :
    syndrome m x = ((List.range (codeLen m)).filter x.getLsbD).foldr (fun p acc => p ^^^ acc) 0 := by
  rw [syndrome_eq_foldr_xor, range_codeLen]
  cases h : x.getLsbD 0 <;> simp [h]

/-- Two ones stand at different positions, and these do not cancel. -/
theorem syndrome_ne_zero_of_weight_two {m : Nat} {e : BitVec (codeLen m)} (h : Spec.weight e = 2) :
    syndrome m e ≠ 0 := by
  obtain ⟨p, q, hpq⟩ := List.length_eq_two.1 h
  have hnodup : [p, q].Nodup := hpq ▸ List.nodup_range.filter _
  rw [syndrome_eq_foldr_xor_range, hpq]
  simpa [Nat.xor_eq_zero_iff] using hnodup

section error
variable {m : Nat} (d : BitVec m) {e : BitVec (codeLen m)}

/-- An odd number of flips is a mismatch, and its syndrome selects one of three rows (R137). -/
theorem decodeVec_of_odd_weight (h : Spec.weight e % 2 = 1) :
    (decodeVec m (encodeVec m d ^^^ e)).mismatch = true ∧
      ((syndrome m e = 0 ∧ (decodeVec m (encodeVec m d ^^^ e)).status = .doubleErrorDetected) ∨
        (1 ≤ syndrome m e ∧ syndrome m e ≤ numPositions m ∧
          (decodeVec m (encodeVec m d ^^^ e)).status = .singleBitCorrected ∧
          (decodeVec m (encodeVec m d ^^^ e)).pos = some (syndrome m e)) ∨
        (numPositions m < syndrome m e ∧ (decodeVec m (encodeVec m d ^^^ e)).status = .unresolvable)) := by
  have hmm : parityMismatch m (encodeVec m d ^^^ e) = true := by simp [parityMismatch_encodeVec_xor, h]
  obtain ⟨-, hcorrected, habove, hoverall, -⟩ := decodeVec_classifiedAs m (encodeVec m d ^^^ e)
  rw [syndrome_encodeVec_xor] at hcorrected habove hoverall
  refine ⟨hmm, ?_⟩
  rcases Nat.eq_zero_or_pos (syndrome m e) with hzero | hpos
  · exact .inl ⟨hzero, (hoverall hzero hmm).1⟩
  rcases le_or_gt (syndrome m e) (numPositions m) with hle | hgt
  · obtain ⟨hst, hp, -⟩ := hcorrected hpos.ne' hmm hle
    exact .inr (.inl ⟨hpos, hle, hst, hp⟩)
  · exact .inr (.inr ⟨hgt, (habove hpos.ne' hmm hgt).1⟩)

/-- An even number of flips is no mismatch, and nothing is corrected (R137). -/
theorem decodeVec_of_even_weight (h : Spec.weight e % 2 = 0) :
    (decodeVec m (encodeVec m d ^^^ e)).mismatch = false ∧
      ((syndrome m e = 0 ∧ (decodeVec m (encodeVec m d ^^^ e)).status = .noError) ∨
        (syndrome m e ≠ 0 ∧ (decodeVec m (encodeVec m d ^^^ e)).status = .unresolvable)) := by
  have hmm : parityMismatch m (encodeVec m d ^^^ e) = false := by simp [parityMismatch_encodeVec_xor, h]
  obtain ⟨hclean, -, -, -, hdouble⟩ := decodeVec_classifiedAs m (encodeVec m d ^^^ e)
  rw [syndrome_encodeVec_xor] at hclean hdouble
  refine ⟨hmm, ?_⟩
  by_cases hzero : syndrome m e = 0
  · exact .inl ⟨hzero, (hclean hzero hmm).1⟩
  · exact .inr ⟨hzero, (hdouble hzero hmm).1⟩

/-- A correction inverts the bit that the syndrome of the error vector names. -/
theorem decodeVec_xor_encodeVec_of_corrected
    (h : (decodeVec m (encodeVec m d ^^^ e)).status = .singleBitCorrected) :
    syndrome m e ≤ numPositions m ∧
      (decodeVec m (encodeVec m d ^^^ e)).y ^^^ encodeVec m d = toggle e (syndrome m e) := by
  obtain ⟨hy, -⟩ := decodeVec_of_singleBitCorrected h
  obtain ⟨-, -, hle⟩ := (classify_eq_singleBitCorrected_iff ..).1 h
  rw [syndrome_encodeVec_xor] at hle hy
  refine ⟨hle, ?_⟩
  rw [hy, toggle, toggle, BitVec.xor_comm, ← BitVec.xor_assoc, ← BitVec.xor_assoc, BitVec.xor_self,
    BitVec.zero_xor]

/-- The bit that the syndrome of three ones names is not one of them: the other two would cancel. -/
theorem weight_toggle_syndrome (h : Spec.weight e = 3) (hle : syndrome m e ≤ numPositions m) :
    Spec.weight (toggle e (syndrome m e)) = 4 := by
  have hlt : syndrome m e < codeLen m := (lt_codeLen m _).2 hle
  cases hbit : e.getLsbD (syndrome m e) with
  | false => rw [weight_toggle_of_eq_false hlt hbit, h]
  | true =>
    have hcleared : (toggle e (syndrome m e)).getLsbD (syndrome m e) = false := by
      simp [getLsbD_toggle_of_lt _ _ hlt, hbit]
    have hweight := weight_toggle_of_eq_false hlt hcleared
    rw [toggle_toggle, h] at hweight
    refine absurd ?_ (syndrome_ne_zero_of_weight_two (e := toggle e (syndrome m e)) (by omega))
    rw [syndrome_toggle hle, Nat.xor_self]

end error

/-- Settles O21: the mismatch is the parity of the weight, the syndrome selects the row, and a miscorrection
of three flips inverts a fourth bit. -/
theorem heavyErrorsAreClassifiedByWeight : Obligations.HeavyErrorsAreClassifiedByWeight := by
  intro m _ d e
  dsimp only
  rw [← syndrome_eq_foldr_xor m e]
  refine ⟨decodeVec_of_odd_weight d, decodeVec_of_even_weight d, fun hweight hst => ?_⟩
  obtain ⟨hle, hxor⟩ := decodeVec_xor_encodeVec_of_corrected d hst
  have hfour : Spec.weight ((decodeVec m (encodeVec m d ^^^ e)).y ^^^ encodeVec m d) = 4 := by
    rw [hxor, weight_toggle_syndrome hweight hle]
  refine ⟨fun heq => ?_, hfour⟩
  rw [heq, BitVec.xor_self, weight_zero] at hfour
  cases hfour

end Sys2Proof.Machine

/-! The exclusive-or trees of the instance with eight data bits (R109, R140). -/

namespace Sys2Proof.Machine

theorem positions_eight : positions 8 = [1, 2, 3, 4, 5, 6, 7, 8, 9, 10, 11, 12] := by decide

theorem dpos_eight : (List.range 8).map (dpos 8) = [3, 5, 6, 7, 9, 10, 11, 12] := by decide

/-- The syndrome of four checks, as a number (R123). -/
theorem syndrome_eight {n : Nat} (x : BitVec n) : syndrome 8 x =
    8 * (parityCheck 8 x 3).toNat + 4 * (parityCheck 8 x 2).toNat + 2 * (parityCheck 8 x 1).toNat +
      (parityCheck 8 x 0).toNat := by
  have hweigh : ∀ (b : Bool) (k : Nat), (if b then k else 0) = k * b.toNat := by
    intro b k
    cases b <;> simp
  have hsum : syndrome 8 x = 2 ^ 0 * (parityCheck 8 x 0).toNat + (2 ^ 1 * (parityCheck 8 x 1).toNat +
      (2 ^ 2 * (parityCheck 8 x 2).toNat + (2 ^ 3 * (parityCheck 8 x 3).toNat + 0))) := by
    simp only [syndrome, hweigh]
    rfl
  omega

/-- Settles O26: each check is the exclusive-or over its list of table 30-3. -/
theorem decoderTreesForEightBits : Obligations.DecoderTreesForEightBits := by
  intro x
  obtain ⟨h0, h1, h2, h3⟩ := cover_eight
  refine ⟨(syndrome_eight x).trans ?_, ?_⟩
  · simp [parityCheck, h0, h1, h2, h3]
  · have hmm : (decodeVec 8 x).mismatch = (xorOver (positions 8) x.getLsbD ^^ x.getLsbD 0) := rfl
    simp [hmm, positions_eight]

/-- The overall tree over the trees and wires of the message bits `a` to `h`: a bit in two trees is counted
three times, a bit in three trees four times. -/
theorem overallTree_cancels (a b c d e f g h : Bool) :
    ((a ^^ b ^^ d ^^ e ^^ g) ^^ ((a ^^ c ^^ d ^^ f ^^ g) ^^ (a ^^ ((b ^^ c ^^ d ^^ h) ^^ (b ^^ (c ^^ (d ^^
      ((e ^^ f ^^ g ^^ h) ^^ (e ^^ (f ^^ (g ^^ (h ^^ false)))))))))))) = (a ^^ b ^^ c ^^ e ^^ f ^^ h) := by
  revert a b c d e f g h
  decide

section trees
variable (d : BitVec 8)

/-- The eight wires: message bit `7 - j` is at the data position `dpos(j)`. -/
theorem wires_eight :
    (encodeVec 8 d).getLsbD 3 = d.getLsbD 7 ∧ (encodeVec 8 d).getLsbD 5 = d.getLsbD 6 ∧
      (encodeVec 8 d).getLsbD 6 = d.getLsbD 5 ∧ (encodeVec 8 d).getLsbD 7 = d.getLsbD 4 ∧
      (encodeVec 8 d).getLsbD 9 = d.getLsbD 3 ∧ (encodeVec 8 d).getLsbD 10 = d.getLsbD 2 ∧
      (encodeVec 8 d).getLsbD 11 = d.getLsbD 1 ∧ (encodeVec 8 d).getLsbD 12 = d.getLsbD 0 := by
  have hwire : ∀ j < 8, (encodeVec 8 d).getLsbD (dpos 8 j) = d.getLsbD (7 - j) := fun j hj =>
    getLsbD_encodeVec_dpos d hj
  exact ⟨hwire 0 (by decide), hwire 1 (by decide), hwire 2 (by decide), hwire 3 (by decide),
    hwire 4 (by decide), hwire 5 (by decide), hwire 6 (by decide), hwire 7 (by decide)⟩

/-- The four parity trees, over the wires: the cover sets without their parity positions. -/
theorem parityTrees_eight :
    (encodeVec 8 d).getLsbD 1 =
        (d.getLsbD 7 ^^ d.getLsbD 6 ^^ d.getLsbD 4 ^^ d.getLsbD 3 ^^ d.getLsbD 1) ∧
      (encodeVec 8 d).getLsbD 2 =
        (d.getLsbD 7 ^^ d.getLsbD 5 ^^ d.getLsbD 4 ^^ d.getLsbD 2 ^^ d.getLsbD 1) ∧
      (encodeVec 8 d).getLsbD 4 = (d.getLsbD 6 ^^ d.getLsbD 5 ^^ d.getLsbD 4 ^^ d.getLsbD 0) ∧
      (encodeVec 8 d).getLsbD 8 = (d.getLsbD 3 ^^ d.getLsbD 2 ^^ d.getLsbD 1 ^^ d.getLsbD 0) := by
  obtain ⟨hc0, hc1, hc2, hc3⟩ := cover_eight
  obtain ⟨h3, h5, h6, h7, h9, h10, h11, h12⟩ := wires_eight d
  have htree : ∀ i < 4, (encodeVec 8 d).getLsbD (2 ^ i) =
      xorOver ((cover 8 i).filter (fun p => p != 2 ^ i)) (encodeVec 8 d).getLsbD := fun i hi =>
    getLsbD_encodeVec_two_pow d (two_pow_le_numPositions hi)
  refine ⟨(htree 0 (by decide)).trans ?_, (htree 1 (by decide)).trans ?_,
    (htree 2 (by decide)).trans ?_, (htree 3 (by decide)).trans ?_⟩
  · simp [hc0, h3, h5, h7, h9, h11]
  · simp [hc1, h3, h6, h7, h10, h11]
  · simp [hc2, h5, h6, h7, h12]
  · simp [hc3, h9, h10, h11, h12]

end trees

/-- Settles O25: the wires and the parity trees, then the overall tree over the twelve positions, in which a
message bit of three cover sets cancels. -/
theorem encoderTreesForEightBits : Obligations.EncoderTreesForEightBits := by
  intro d
  obtain ⟨h3, h5, h6, h7, h9, h10, h11, h12⟩ := wires_eight d
  obtain ⟨h1, h2, h4, h8⟩ := parityTrees_eight d
  have h0 : (encodeVec 8 d).getLsbD 0 = xorOver (positions 8) (encodeVec 8 d).getLsbD :=
    getLsbD_addOverall_zero 8 _
  refine ⟨h3, h5, h6, h7, h9, h10, h11, h12, h1, h2, h4, h8, ?_, ?_⟩
  · simp [h0, positions_eight]
  · simp only [h0, positions_eight, xorOver_cons, xorOver_nil, h1, h2, h3, h4, h5, h6, h7, h8, h9, h10,
      h11, h12]
    exact overallTree_cancels ..

end Sys2Proof.Machine

/-! The two levels (R9, R72): strings through the codec, and requests assembled from strings. -/

namespace Sys2Proof.Machine

/-- A flip of a binary string inverts the bit of its vector at that string index (R154). -/
theorem flipStr_of_isBinary {s : List Char} {n k : Nat} (hlen : s.length = n) (hbin : isBinary s = true)
    (hk : k < n) : flipStr s k = .ok (bitsStr (toggle (bitsVec n s) (vecIndex n k))) := by
  subst hlen
  rw [flipStr_inRange hbin hk, bitsStr_toggle_bitsVec hbin hk]

theorem flipStr_codeword {m k : Nat} (x : BitVec (codeLen m)) (hk : k < codeLen m) :
    flipStr (bitsStr x) k = .ok (bitsStr (toggle x (hpos m k))) := by
  rw [flipStr_of_isBinary (length_bitsStr x) (isBinary_bitsStr x) hk, bitsVec_bitsStr]
  rfl

theorem decodeStr_bitsStr {m : Nat} (hm : 1 ≤ m) (x : BitVec (codeLen m)) :
    decodeStr (bitsStr x) =
      .ok (bitsStr (decodeVec m x).y, (decodeVec m x).status, (decodeVec m x).idx) := by
  rw [decodeStr_of_isBinary hm (length_bitsStr x) (isBinary_bitsStr x), bitsVec_bitsStr]

/-- A string that is encoded has a valid width, and its codeword string is that of a codeword (R107). -/
theorem encodeStr_eq_ok {s c : List Char} {m : Nat} (h : encodeStr s m = .ok c) :
    1 ≤ m ∧ ∃ d : BitVec m, c = bitsStr (encodeVec m d) := by
  have hchecks : ¬ ((m : Int) < 1 ∨ (s.length : Int) ≠ m ∨ isBinary s = false) := fun hcheck => by
    cases h.symm.trans ((encodeStr_eq_error_iff s m _).2 ⟨rfl, hcheck⟩)
  push Not at hchecks
  obtain ⟨hm, hlen, hbin⟩ := hchecks
  have hm' : 1 ≤ m := by omega
  cases h.symm.trans (encodeStr_of_isBinary hm' (by omega) (by simpa using hbin))
  exact ⟨hm', _, rfl⟩

/-- A word that the decoder returns unchanged and without a position is so on strings (R135). -/
theorem decodeStr_bitsStr_unchanged {m : Nat} (hm : 1 ≤ m) {x : BitVec (codeLen m)} {st : Status}
    (h : (decodeVec m x).status = st ∧ (decodeVec m x).y = x ∧ (decodeVec m x).pos = none) :
    decodeStr (bitsStr x) = .ok (bitsStr x, st, none) := by
  obtain ⟨hst, hy, hpos⟩ := h
  rw [decodeStr_bitsStr hm, hy, hst, decodeVec_idx_eq_none hpos]

/-- Settles O32: the string functions are those on vectors, where the decoder after no, one and two flips is
known. -/
theorem stringRoundTrips : Obligations.StringRoundTrips := by
  intro m msg c h
  obtain ⟨hm, d, rfl⟩ := encodeStr_eq_ok h
  refine ⟨decodeStr_bitsStr_unchanged hm (decodeVec_encodeVec d), fun i hi => ?_, ?_, fun i j hi hj hne => ?_⟩
  · have hlt : i < codeLen m := (lt_codeLen m i).2 (Nat.le_of_succ_le hi)
    obtain ⟨hy, hst, -, hidx⟩ := decodeVec_index_flip d hi
    refine ⟨_, flipStr_codeword _ hlt, ?_, ?_⟩
    · rw [decodeStr_bitsStr hm, hy, hst, hidx]
    · rw [flipStr_codeword _ hlt, toggle_toggle]
  · refine ⟨_, flipStr_codeword _ ((lt_codeLen m _).2 le_rfl), ?_⟩
    rw [hpos_numPositions]
    exact decodeStr_bitsStr_unchanged hm (decodeVec_overall_flip d)
  · rw [length_bitsStr] at hi hj
    exact ⟨_, _, flipStr_codeword _ hi, flipStr_codeword _ hj, decodeStr_bitsStr_unchanged hm
      (decodeVec_two_flips d (hpos_le m i) (hpos_le m j) (hpos_ne hi hj hne))⟩

/-- The message operand of the assembler's `ENCODE` word is the message (R84, R87). -/
theorem messageOperand_asm (m : Nat) (d : BitVec m) :
    messageOperand m (Word.of (d.setWidth (codeLen m))) = d := by
  have hle : m ≤ codeLen m := by
    unfold codeLen numPositions
    omega
  simp [messageOperand, BitVec.setWidth_setWidth_of_le, hle]

theorem codewordOperand_of (m : Nat) (x : BitVec (codeLen m)) : codewordOperand m (Word.of x) = x :=
  Word.read_of x

theorem indexOperand_of (m : Nat) (k : BitVec (idxWidth m)) : indexOperand m (Word.of k) = k :=
  Word.read_of k

section calls
variable {t u : List Char} {s : State}

theorem callEncode_of_ok {d : Option Int} (h : encodeStr t (declaredWidth d s) = .ok u) :
    callEncode (some t) d s = returnData u s := by
  simp [callEncode, hostOperand, h]

theorem callDecode_of_ok {st : Status} {k : Option Nat} (h : decodeStr t = .ok (u, st, k)) :
    callDecode (some t) s = returnDecoded u st k s := by
  simp [callDecode, hostOperand, h]

theorem callFlip_of_ok {k : Int} (h : flipStr t k = .ok u) : callFlip (some t) k s = returnData u s := by
  simp [callFlip, hostOperand, h]

theorem callFlip_of_error {k : Int} {e : CodecError} (h : flipStr t k = .error e) :
    callFlip (some t) k s = raise e s := by
  simp [callFlip, hostOperand, h]

end calls

/-- The host finds the same in both states: `cur`, `last` and the reply. -/
def SameForHost (s t : State) : Prop := s.cur = t.cur ∧ s.last = t.last ∧ s.reply = t.reply

section levels
variable (s : State) {str : List Char} (hbin : isBinary str = true)
include hbin

/-- An `ENCODE` request and a string-level `encode` of the same message (R72). -/
theorem exec_encode_sameForHost (hlen : str.length = s.m) (idx : Word) :
    ∃ t, exec (.encode idx (Word.of ((bitsVec s.m str).setWidth (codeLen s.m)))) s = .next t ∧
      SameForHost t (callEncode (some str) none s) := by
  have hm : 1 ≤ s.m := s.width.pos
  rw [callEncode_of_ok (s := s) (encodeStr_of_isBinary hm hlen hbin)]
  refine ⟨_, rfl, ?_⟩
  rw [messageOperand_asm]
  exact ⟨rfl, rfl, rfl⟩

section codeword
variable (hlen : str.length = codeLen s.m)
include hlen

/-- A `DECODE` request and a string-level `decode` of the same codeword (R72). -/
theorem exec_decode_sameForHost (idx : Word) :
    ∃ t, exec (.decode idx (Word.of (bitsVec (codeLen s.m) str))) s = .next t ∧
      SameForHost t (callDecode (some str) s) := by
  have hm : 1 ≤ s.m := s.width.pos
  rw [callDecode_of_ok (s := s) (decodeStr_of_isBinary hm hlen hbin)]
  refine ⟨_, rfl, ?_⟩
  rw [codewordOperand_of]
  exact ⟨rfl, rfl, rfl⟩

/-- A `FLIP` request and a string-level `flip_bit` of the same bits, in range and out of range (R72). -/
theorem exec_flip_sameForHost (k : BitVec (idxWidth s.m)) :
    ∃ t, exec (.flip (Word.of k) (Word.of (bitsVec (codeLen s.m) str))) s = .next t ∧
      SameForHost t (callFlip (some str) k.toNat s) := by
  by_cases hk : k.toNat < codeLen s.m
  · rw [callFlip_of_ok (s := s) (flipStr_of_isBinary hlen hbin hk)]
    refine ⟨_, execFlip_inRange _ _ s (by rwa [indexOperand_of]), ?_⟩
    rw [indexOperand_of, codewordOperand_of]
    exact ⟨rfl, rfl, rfl⟩
  · have hout : codeLen s.m ≤ k.toNat := not_lt.1 hk
    rw [callFlip_of_error (s := s) (flipStr_outOfRange hbin (.inr (by omega)))]
    exact ⟨_, execFlip_outOfRange _ _ s (by rwa [indexOperand_of]), rfl, rfl, rfl⟩

end codeword

end levels

theorem step_withRequest {s : State} {w : Word} {rest : List Call} {i : Instr}
    (hi : decodeRequest s.m w = .ok i) :
    step { s with calls := .request w :: rest } = exec i { s with calls := rest } :=
  step_of_decodeRequest (s := { s with calls := .request w :: rest }) rfl hi

/-- Settles O33: the assembled word decodes to its operation on the string's vector, and that leaves with the
host what the string-level call leaves. -/
theorem bothLevelsAgree : Obligations.BothLevelsAgree := by
  refine fun s str rest hbin => ⟨fun hlen => ?_, fun hlen => ?_, fun hlen k => ?_⟩
  · obtain ⟨hasm, -⟩ := decodeRequest_asm s.m (bitsVec s.m str) 0 0
    obtain ⟨t, ht, hsame⟩ := exec_encode_sameForHost { s with calls := rest } hbin hlen _
    exact ⟨t, _, (step_withRequest hasm).trans ht, step_encode rfl, hsame⟩
  · obtain ⟨-, hasm, -⟩ := decodeRequest_asm s.m 0 (bitsVec (codeLen s.m) str) 0
    obtain ⟨t, ht, hsame⟩ := exec_decode_sameForHost { s with calls := rest } hbin hlen _
    exact ⟨t, _, (step_withRequest hasm).trans ht, step_decode rfl, hsame⟩
  · obtain ⟨-, -, hasm⟩ := decodeRequest_asm s.m 0 (bitsVec (codeLen s.m) str) k
    obtain ⟨t, ht, hsame⟩ := exec_flip_sameForHost { s with calls := rest } hbin hlen k
    exact ⟨t, _, (step_withRequest hasm).trans ht, step_flip rfl, hsame⟩

end Sys2Proof.Machine
